-- ==== Sys2Proof/Word.lean ====
section
/-!
DEFINITION. The datum types of the core: the 16-bit Word (R7) and the 4-bit field of an instruction word (R52, R55).
-/

namespace Sys2Proof

/-- "a 16-bit unsigned value with wraparound (modulo-65536) arithmetic; the sole datum type in the system" (R7).
`BitVec` addition and subtraction are exactly `+16` and `-16` of that rule. -/
abbrev Word := BitVec 16

/-- One of the four 4-bit fields of word 1 (R52): an opcode, a register selector, a jump mode or a flag bit position. -/
abbrev Nibble := BitVec 4

/-- A register selector: "the unsigned 4-bit field value 0..15, naming slot `x[field]`" (R55). -/
abbrev Sel := Nibble

end Sys2Proof
end

