-- ==== Sys2Proof/Syntax.lean ====
section
/-!
DEFINITION. The instruction set as data: one constructor for each of the 16 rows of spec/opcode_table.json (R57).
A constructor holds exactly the fields its format uses (R54); a field the format ignores is not part of the instruction (R56).
-/

namespace Sys2Proof

/-- The instructions in the order of the opcode map (R57). `a`, `b` and `c` are the selectors A, B and C of R54. -/
inductive Instr where
  /-- ADD (0x0), format RRR: `x[C] <- x[A] +16 x[B]` (R76). -/
  | add (a b c : Sel)
  /-- SUB (0x1), format RRR: `x[C] <- x[A] -16 x[B]` (R77). -/
  | sub (a b c : Sel)
  /-- NOT (0x2), format R_RW: `x[A] <- ~x[A]` (R78). -/
  | not (a : Sel)
  /-- AND (0x3), format RR_F: the truth of `x[A] & x[B]` goes to FLAGS (R79). -/
  | and (a b : Sel)
  /-- OR (0x4), format RR_F: the truth of `x[A] | x[B]` goes to FLAGS (R80). -/
  | or (a b : Sel)
  /-- CMP (0x5), format RR_F: unsigned comparison into FLAGS (R81). -/
  | cmp (a b : Sel)
  /-- CPY (0x6), format RR_MOVE: `x[B] <- x[A]` (R82). -/
  | cpy (a b : Sel)
  /-- OUT (0x7), format R_SRC: emit `x[A]` (R83). -/
  | out (a : Sel)
  /-- MOV (0x8), format R_LIT_ST: `D[addr] <- x[A]` (R84). -/
  | mov (a : Sel) (addr : Word)
  /-- LD (0x9), format R_LIT_LD: `x[A] <- D[addr]` (R85). -/
  | ld (a : Sel) (addr : Word)
  /-- LDV (0xA), format R_LIT_LD: `x[A] <- value` (R86). -/
  | ldv (a : Sel) (value : Word)
  /-- Reserved opcode 0xB, format NONE (R90). -/
  | reservedB
  /-- Reserved opcode 0xC, format NONE (R90). -/
  | reservedC
  /-- Reserved opcode 0xD, format NONE (R90). -/
  | reservedD
  /-- J (0xE), format JUMP: conditional or unconditional jump to `target` (R87). -/
  | j (mode bit : Nibble) (target : Word)
  /-- HLT (0xF), format NONE (R89). -/
  | hlt
  deriving DecidableEq, Repr

end Sys2Proof
end

