-- ==== Sys2Proof/Decode.lean ====
section
/-!
DEFINITION. The decoder (R52 to R59, R68), the encoder (R54, R62) and the opcode table's numbering of an instruction's bits.

The decoder is total: "each pair is exactly one of the 13 instructions or the reserved class" (R59). Nothing is rejected here;
the three reserved opcodes decode to their own constructors, whose meaning halts the core (R58, R90).
-/

namespace Sys2Proof

/-- The four fields of word 1: `Decode(w1) = (w1[15:12], w1[11:8], w1[7:4], w1[3:0])` (R52, R68). -/
structure Fields where
  op : Nibble
  f2 : Nibble
  f3 : Nibble
  f4 : Nibble
  deriving DecidableEq, Repr

/-- Split word 1 into its fields (R52). -/
def splitWord (w1 : Word) : Fields where
  op := w1.extractLsb' 12 4
  f2 := w1.extractLsb' 8 4
  f3 := w1.extractLsb' 4 4
  f4 := w1.extractLsb' 0 4

/-- Join four fields into word 1, the inverse layout of `splitWord` (R52). -/
def joinWord (op f2 f3 f4 : Nibble) : Word := op ++ f2 ++ f3 ++ f4

/-- The instruction of opcode `op` with the given fields and literal (R54, R57). Opcodes are below 16, so the last case is
0xF alone. -/
def decodeFields (f : Fields) (lit : Word) : Instr :=
  match f.op.toNat with
  | 0x0 => .add f.f2 f.f3 f.f4
  | 0x1 => .sub f.f2 f.f3 f.f4
  | 0x2 => .not f.f2
  | 0x3 => .and f.f2 f.f3
  | 0x4 => .or f.f2 f.f3
  | 0x5 => .cmp f.f2 f.f3
  | 0x6 => .cpy f.f2 f.f3
  | 0x7 => .out f.f2
  | 0x8 => .mov f.f2 lit
  | 0x9 => .ld f.f2 lit
  | 0xA => .ldv f.f2 lit
  | 0xB => .reservedB
  | 0xC => .reservedC
  | 0xD => .reservedD
  | 0xE => .j f.f2 f.f3 lit
  | _   => .hlt

/-- The instruction the word pair `(w1, w2)` stands for (R57, R59). -/
def decode (w1 w2 : Word) : Instr := decodeFields (splitWord w1) w2

/-- The opcode of an instruction (R57). -/
def Instr.opcode : Instr → Nibble
  | .add _ _ _  => 0x0#4
  | .sub _ _ _  => 0x1#4
  | .not _      => 0x2#4
  | .and _ _    => 0x3#4
  | .or _ _     => 0x4#4
  | .cmp _ _    => 0x5#4
  | .cpy _ _    => 0x6#4
  | .out _      => 0x7#4
  | .mov _ _    => 0x8#4
  | .ld _ _     => 0x9#4
  | .ldv _ _    => 0xA#4
  | .reservedB  => 0xB#4
  | .reservedC  => 0xC#4
  | .reservedD  => 0xD#4
  | .j _ _ _    => 0xE#4
  | .hlt        => 0xF#4

/-- Word 1 as the assembler of R62 writes it: "Fields an instruction ignores are assembled as 0". -/
def encodeWord1 (i : Instr) : Word :=
  match i with
  | .add a b c  => joinWord i.opcode a b c
  | .sub a b c  => joinWord i.opcode a b c
  | .not a      => joinWord i.opcode a 0 0
  | .and a b    => joinWord i.opcode a b 0
  | .or a b     => joinWord i.opcode a b 0
  | .cmp a b    => joinWord i.opcode a b 0
  | .cpy a b    => joinWord i.opcode a b 0
  | .out a      => joinWord i.opcode a 0 0
  | .mov a _    => joinWord i.opcode a 0 0
  | .ld a _     => joinWord i.opcode a 0 0
  | .ldv a _    => joinWord i.opcode a 0 0
  | .reservedB  => joinWord i.opcode 0 0 0
  | .reservedC  => joinWord i.opcode 0 0 0
  | .reservedD  => joinWord i.opcode 0 0 0
  | .j m f _    => joinWord i.opcode m f 0
  | .hlt        => joinWord i.opcode 0 0 0

/-- Word 2 as the assembler of R62 writes it: the literal where the instruction uses one, else `0x0000`. -/
def encodeWord2 : Instr → Word
  | .mov _ addr   => addr
  | .ld _ addr    => addr
  | .ldv _ value  => value
  | .j _ _ target => target
  | .add _ _ _ | .sub _ _ _ | .not _ | .and _ _ | .or _ _ | .cmp _ _ | .cpy _ _ | .out _
  | .reservedB | .reservedC | .reservedD | .hlt => 0#16

/-- The two words of an instruction (R51, R62). -/
def encode (i : Instr) : Word × Word := (encodeWord1 i, encodeWord2 i)

/-- Word 1 of an instruction whose bits the opcode table numbers as `w`, `nbits` of them given and the rest 0. -/
def tableWord1 (nbits w : Nat) : Word := BitVec.ofNat 16 (w % 2 ^ nbits)

/-- Word 2 of the same: the bits from 16 upwards. -/
def tableWord2 (nbits w : Nat) : Word := BitVec.ofNat 16 (w % 2 ^ nbits / 65536)

/-- The instruction the decoder reads from an instruction whose bits are `w` as spec/opcode_table.json numbers them.
The decoder is total (R59), so there always is one. -/
def decodeTableWord (nbits w : Nat) : Option Instr :=
  some (decode (tableWord1 nbits w) (tableWord2 nbits w))

end Sys2Proof
end

