-- ==== Sys2Proof/Machine/Flags.lean ====
section
/-!
DEFINITION. The Flag Unit: the bits of FLAGS (R25), the bit accessors of R9, and the two flag computations the spec gives:
comparison (R81) and the truth of AND and OR (R79, R80).
-/

namespace Sys2Proof.Machine

/-- Bit 0 of FLAGS: "greater-than" (R25). -/
def gtBit : Nat := 0

/-- Bit 1 of FLAGS: "equal", and the truth bit of AND and OR (R25). -/
def eqBit : Nat := 1

/-- Bit 2 of FLAGS: "less-than" (R25). -/
def ltBit : Nat := 2

/-- `getBit(w, p)`: bit p of w (R9). -/
def getBit (w : Word) (p : Nat) : Bool := w.getLsbD p

/-- `setBit(w, p, b)`: w with bit p replaced by b (R9). -/
def setBit (w : Word) (p : Nat) (b : Bool) : Word :=
  if b then w ||| (1#16 <<< p) else w &&& ~~~(1#16 <<< p)

/-- FLAGS after CMP of `a` with `b`, from the old FLAGS `f`: bits 2:0 cleared, then the one that applies set (R81). -/
def compareFlags (f a b : Word) : Word :=
  let cleared := setBit (setBit (setBit f gtBit false) eqBit false) ltBit false
  if b < a then setBit cleared gtBit true
  else if a = b then setBit cleared eqBit true
  else setBit cleared ltBit true

/-- FLAGS after AND or OR with the 16-bit result `r`, from the old FLAGS `f`: GT and LT cleared, EQ the truth of `r` (R79, R80). -/
def truthFlags (f r : Word) : Word :=
  setBit (setBit (setBit f gtBit false) ltBit false) eqBit (decide (r ≠ 0#16))

end Sys2Proof.Machine
end

