-- ==== Sys2Proof/Config.lean ====
section
/-!
DEFINITION. What an implementation of the core fixes (R5, R6) and the one value the spec leaves free (`DATA_INIT`, R45).

The parameters `NREG`, `PROTECTED_SLOT_POLICY` and `RESET_DATA` are the fields of `Params`; a machine instance carries its
`Params` unchanged for life, so a statement about every state is a statement for every choice of them (log entry 1).
`PACING` has no architectural effect and is left out, as R73 says (log entry 2).
-/

namespace Sys2Proof

/-- `NREG`: "an integer, 5 <= NREG <= 16" (R5, R15). -/
abbrev NReg := { n : Nat // 5 ≤ n ∧ n ≤ 16 }

/-- `PROTECTED_SLOT_POLICY` (R5, R19): what ADD, SUB, NOT, CPY, LD and LDV do when their destination is slot 0 or 1. -/
inductive SlotPolicy where
  /-- The spec's default: the instruction raises `ProtectedRegisterWrite` and writes nothing. -/
  | fault
  /-- "the write takes place like a write to any other slot" (R19). -/
  | write
  deriving DecidableEq, Repr

/-- `RESET_DATA` (R5, R106): what a reset after power-on does to the Data Store. -/
inductive ResetData where
  /-- Every word of the Data Store keeps its value. -/
  | keep
  /-- The Data Store becomes a fresh arbitrary function. -/
  | redraw
  deriving DecidableEq, Repr

/-- The parameters of one machine instance (R5, R33). They are configuration: no instruction and no host action changes them. -/
structure Params where
  nreg       : NReg
  slotPolicy : SlotPolicy
  resetData  : ResetData
  deriving DecidableEq, Repr

namespace Config

/-- Each bank holds 65536 Words (R6). -/
def bankWords : Nat := 65536

/-- The loader's sentinel word: "The spec fixes the sentinel at 0xFFFF" (R44). -/
def sentinel : Word := 0xFFFF#16

/-- `DATA_INIT` (R5, R45): the arbitrary contents of the Data Store, one function from address to Word for each draw
(draw 0 and up: power-on takes one, and each reset under `RESET_DATA = redraw` takes the next, R106).
A FREE VALUE: it has no body, so a proof about it holds for every function (log entry 3). -/
opaque dataInit : Nat → Word → Word

end Config

end Sys2Proof
end

