-- ==== Sys2Proof/Machine/State.lean ====
section
/-!
DEFINITION. The complete state of one machine instance (R33) as plain data, the reasons a host request can be turned away,
and the machine right after power-on (R34, R105).
-/

namespace Sys2Proof.Machine

/-- Why the core halted (R28, R92). -/
inductive HaltCause where
  /-- Code 0: `halted = false`. -/
  | none
  /-- Code 1: an intentional halt, HLT (R89). -/
  | requested
  /-- Code 2: opcodes 0xB, 0xC and 0xD (R90). -/
  | undefinedOpcode
  /-- Code 3: a register selector the opcode uses is >= NREG (R69). -/
  | invalidRegister
  /-- Code 4: the destination selector is 0 or 1 and `PROTECTED_SLOT_POLICY = fault` (R70). -/
  | protectedRegisterWrite
  deriving DecidableEq, Repr

/-- The stored cells of a bank: address and Word, addresses rising (`Memory.wf` in Machine/Ops.lean). One address holds "one
whole 16-bit Word" and no smaller unit exists (R39), so a cell holds a Word (log entry 4). -/
abbrev Memory := List (Nat × Word)

/-- The state of one machine instance. `x`, `p`, `d`, `halted`, `haltCause` and `out` are the six pieces of R33; `params` is its
configuration; `dataDraw`, `loaded` and `cycles` are what R45 and R106, R111 and R107, and R74 and R108 ask a model to know. -/
structure State where
  /-- The parameters of this instance (R5); nothing changes them. -/
  params    : Params
  /-- The register file, `array[NREG] of Word`: `x[0]` is the PC and `x[1]` is FLAGS (R15, R16). -/
  x         : Vector Word params.nreg.val
  /-- Program Store `P`: the loaded cells; an unlisted address reads the sentinel (R44). -/
  p         : Memory
  /-- Data Store `D`: the cells MOV has written since power-on (or since a redraw); an unlisted cell holds its `DATA_INIT`
  Word (R45). -/
  d         : Memory
  /-- Which draw of the free value `DATA_INIT` the unwritten cells of `D` hold (log entry 3). -/
  dataDraw  : Nat
  /-- The halt flag (R27). -/
  halted    : Bool
  /-- Why the core halted (R28). -/
  haltCause : HaltCause
  /-- The output stream, oldest Word first (R29). -/
  out       : List Word
  /-- A load has completed since power-on (R107, R111; log entry 9). -/
  loaded    : Bool
  /-- Cycles run since the last reset (R74, R108, R116; log entry 9). -/
  cycles    : Nat
  deriving DecidableEq, Repr

/-- There is NO fault of the model: "Every exceptional condition halts the core for good and records its cause" (R91), so every
fault of this hardware is a next state with `halted` set (log entry 12). -/
inductive Fault where
  deriving DecidableEq, Repr

/-- Requests that are turned away. No instruction's meaning answers with one. -/
inductive Refusal where
  /-- An instruction without a meaning; raised by no arm of this model. Safe. -/
  | notModelled (mnemonic : String)
  /-- Raised by `step`: "A `step` with no completed load since power-on is refused" (R111). Safe. -/
  | noProgramLoaded
  /-- Raised by the host's load: "The host may load only while no cycle has run since the last reset" (R111). Safe. -/
  | loadDuringRun
  /-- Raised by the host's load: "n <= 65536, else the load is refused and changes nothing" (R108). Safe. -/
  | loadTooLong
  deriving DecidableEq, Repr

/-- The core after power-on (R34, R105): registers zero, not halted, no output, no program loaded, the Data Store holding the
arbitrary contents of draw `draw`. -/
def State.powerOn (params : Params) (draw : Nat) : State where
  params    := params
  x         := Vector.replicate params.nreg.val 0#16
  p         := []
  d         := []
  dataDraw  := draw
  halted    := false
  haltCause := .none
  out       := []
  loaded    := false
  cycles    := 0

/-- The parameters of the instance `State.reset` shows: `NREG = 16` and `PROTECTED_SLOT_POLICY = fault` as the test vectors of
spec/95 assume, and `RESET_DATA = keep`. DESIGN CHOICE: the spec gives `NREG` and `RESET_DATA` no default (log entry 1). -/
def Params.shown : Params where
  nreg       := ⟨16, by decide⟩
  slotPolicy := .fault
  resetData  := .keep

/-- The machine right after reset, that is after power-on (R105), for the shown parameters. -/
def State.reset : State := State.powerOn Params.shown 0

end Sys2Proof.Machine
end

