-- ==== Sys2Proof/Machine/Ops.lean ====
section
/-!
DEFINITION. The named operations over the banks, the registers and the halt state, and the parts of a cycle that stand around
an instruction: fetch (R66) and the PC pre-increment (R67).
-/

namespace Sys2Proof.Machine

/-! ### The cells of a bank -/

/-- The cells' addresses rise strictly and lie above `lo`. -/
def Memory.risesFrom (lo : Nat) : Memory → Bool
  | []            => true
  | (a, _) :: m   => decide (lo ≤ a) && Memory.risesFrom (a + 1) m

/-- The canonical form of a bank: addresses strictly rising and below 65536 (R35). -/
def Memory.wf (m : Memory) : Bool :=
  Memory.risesFrom 0 m && m.all (fun cell => decide (cell.1 < Config.bankWords))

/-- The Word stored at address `a`, if the cell is listed. -/
def Memory.find? (a : Nat) : Memory → Option Word
  | []          => none
  | (b, w) :: m => if a = b then some w else Memory.find? a m

/-- List the cell `a` with Word `v`, in its place. -/
def Memory.put (a : Nat) (v : Word) : Memory → Memory
  | []          => [(a, v)]
  | (b, w) :: m =>
    if a < b then (a, v) :: (b, w) :: m
    else if a = b then (a, v) :: m
    else (b, w) :: Memory.put a v m

/-- Unlist the cell `a`. -/
def Memory.remove (a : Nat) : Memory → Memory
  | []          => []
  | (b, w) :: m => if a = b then m else (b, w) :: Memory.remove a m

/-- No listed cell of a Program Store holds what an unlisted address reads as, the sentinel (R44). -/
def Memory.noSentinel (m : Memory) : Bool :=
  m.all (fun cell => decide (cell.2 ≠ Config.sentinel))

/-- Put a Word into a Program Store; the sentinel is what an unlisted address reads as, so it is stored by unlisting. -/
def Memory.putProgram (a : Nat) (v : Word) (m : Memory) : Memory :=
  if v = Config.sentinel then m.remove a else m.put a v

/-- The Program Store that holds `words` from address `a` on and the sentinel everywhere else (R108). -/
def Memory.ofWords (a : Nat) : List Word → Memory
  | []      => []
  | w :: ws => if w = Config.sentinel then Memory.ofWords (a + 1) ws else (a, w) :: Memory.ofWords (a + 1) ws

namespace State

/-! ### The register file (R9, R15 to R20) -/

/-- `NREG` of this instance. -/
def nreg (s : State) : Nat := s.params.nreg.val

/-- `x[r]` (R9). An invalid selector never reaches this: R69's check stands before it (log entry 11). -/
def readReg (s : State) (r : Sel) : Word := (s.x[r.toNat]?).getD 0#16

/-- `x[r] <- v` (R9). An invalid selector never reaches this: R69's check stands before it (log entry 11). -/
def writeReg (s : State) (r : Sel) (v : Word) : State :=
  { s with x := s.x.setIfInBounds r.toNat v }

/-- The program counter, slot 0 (R16, R21). -/
def pc (s : State) : Word := s.readReg 0

/-- The flags register, slot 1 (R16, R25). -/
def flags (s : State) : Word := s.readReg 1

/-- `pc <- target` (R9). -/
def setPc (s : State) (target : Word) : State := s.writeReg 0 target

/-- `flags <- f` (R9). -/
def setFlags (s : State) (f : Word) : State := s.writeReg 1 f

/-! ### The two banks (R10, R35 to R38) -/

/-- `MemRead(P, a, 1)` (R10, R38). An unlisted address holds the sentinel (R44). -/
def readProgram (s : State) (a : Word) : Word := (s.p.find? a.toNat).getD Config.sentinel

/-- `MemRead(D, a, 1)` (R10, R38). A cell not yet written holds its `DATA_INIT` Word, the same on every read (R42, R45). -/
def readData (s : State) (a : Word) : Word := (s.d.find? a.toNat).getD (Config.dataInit s.dataDraw a)

/-- `MemWrite(D, a, 1, v)` (R10, R38): sets `D[a]` and changes no other address. -/
def writeData (s : State) (a v : Word) : State := { s with d := s.d.put a.toNat v }

/-! ### The output stream (R11, R29) -/

/-- `emit(v)`: appends the Word to the output stream. -/
def emit (s : State) (v : Word) : State := { s with out := s.out ++ [v] }

/-! ### Halting, the only exception the core has, and reset, the only way back (R91, R98, R99) -/

/-- `halt(cause)`: `halted <- true` and `halt_cause <- cause`, and nothing else (R11, R93, R98). -/
def halt (s : State) (cause : HaltCause) : State := { s with halted := true, haltCause := cause }

/-- `Reset()` (R104): registers to zero, running, no output, and the Data Store as `RESET_DATA` says (R106). `P` and the
parameters are unchanged, and a completed load stays completed (R107). -/
def hostReset (s : State) : State :=
  { s with
    x         := Vector.replicate s.params.nreg.val 0#16
    d         := match s.params.resetData with
                 | .keep   => s.d
                 | .redraw => []
    dataDraw  := match s.params.resetData with
                 | .keep   => s.dataDraw
                 | .redraw => s.dataDraw + 1
    halted    := false
    haltCause := .none
    out       := []
    cycles    := 0 }

/-! ### The parts of a cycle around the instruction (R65 to R67) -/

/-- Word 1, from `P[pc0]` (R66). -/
def fetchWord1 (s : State) : Word := s.readProgram s.pc

/-- Word 2, from `P[pc0 +16 1]`, which wraps at the top of the Program Store (R40, R66). -/
def fetchWord2 (s : State) : Word := s.readProgram (s.pc + 1)

/-- What the run loop does before dispatch: `x[0] <- pc0 +16 2`, "always and for every opcode" (R67), and the cycle is counted
(R72, R116). -/
def beginCycle (s : State) : State := { s.setPc (s.pc + 2) with cycles := s.cycles + 1 }

/-- Both words of one instruction in the Program Store at the PC, in a machine that is running a loaded program. It stands for
the host's load (log entry 8) and serves `State.withFetchWord`. -/
def placeAtPc (s : State) (w1 w2 : Word) : State :=
  { s with
    p         := (s.p.putProgram s.pc.toNat w1).putProgram (s.pc + 1).toNat w2
    halted    := false
    haltCause := .none
    loaded    := true }

end State

end Sys2Proof.Machine
end

