-- ==== Sys2Proof/Machine/Operands.lean ====
section
/-!
DEFINITION. What every instruction with register operands shares: the selector check (R69), the protected destination check
(R70), their order (R71, R95), and the one way an instruction completes or faults after them (R93).
-/

namespace Sys2Proof.Machine

namespace State

/-- "A register selector is valid when its value is below NREG" (R17). -/
def validSel (s : State) (r : Sel) : Bool := decide (r.toNat < s.nreg)

/-- The selector check of R69 over the selector fields an opcode uses. -/
def validSels (s : State) (used : List Sel) : Bool := used.all s.validSel

/-- The protected destination check of R70: the destination is slot 0 or 1 and the policy is `fault`. -/
def protectedDest (s : State) (dest : Option Sel) : Bool :=
  match dest, s.params.slotPolicy with
  | some d, .fault => decide (d = 0#4 ∨ d = 1#4)
  | some _, .write => false
  | none, _        => false

/-- The fault an instruction raises before any effect, if it raises one: `InvalidRegister` before `ProtectedRegisterWrite`
(R69, R70, R95). -/
def operandFault (s : State) (used : List Sel) (dest : Option Sel) : Option HaltCause :=
  if s.validSels used then
    if s.protectedDest dest then some .protectedRegisterWrite else none
  else some .invalidRegister

/-- An instruction that uses the selectors `used`, writes the destination `dest` and, where it does not fault, leaves `done`:
a fault halts the core with none of the instruction's effects (R69, R70, R93). -/
def complete (s : State) (used : List Sel) (dest : Option Sel) (done : State) :
    Host.Outcome State Fault Refusal :=
  match s.operandFault used dest with
  | some cause => .next (s.halt cause)
  | none       => .next done

end State

end Sys2Proof.Machine
end

