-- ==== Sys2Proof/Machine/Alu.lean ====
section
/-!
DEFINITION. The meanings of the ALU and comparison instructions, ADD to CMP (spec/41_alu.md). In every meaning of this model the
state is the one the run loop hands to Execute, with the PC already at `pc0 +16 2` (R67, R71).
-/

namespace Sys2Proof.Machine

/-- ADD (R76). -/
def execAdd (a b c : Sel) (s : State) : Host.Outcome State Fault Refusal :=
  s.complete [a, b, c] (some c) (s.writeReg c (s.readReg a + s.readReg b))

/-- SUB (R77). -/
def execSub (a b c : Sel) (s : State) : Host.Outcome State Fault Refusal :=
  s.complete [a, b, c] (some c) (s.writeReg c (s.readReg a - s.readReg b))

/-- NOT (R78). -/
def execNot (a : Sel) (s : State) : Host.Outcome State Fault Refusal :=
  s.complete [a] (some a) (s.writeReg a (~~~ s.readReg a))

/-- AND (R79): no register but FLAGS is written. -/
def execAnd (a b : Sel) (s : State) : Host.Outcome State Fault Refusal :=
  s.complete [a, b] none (s.setFlags (truthFlags s.flags (s.readReg a &&& s.readReg b)))

/-- OR (R80): no register but FLAGS is written. -/
def execOr (a b : Sel) (s : State) : Host.Outcome State Fault Refusal :=
  s.complete [a, b] none (s.setFlags (truthFlags s.flags (s.readReg a ||| s.readReg b)))

/-- CMP (R81). -/
def execCmp (a b : Sel) (s : State) : Host.Outcome State Fault Refusal :=
  s.complete [a, b] none (s.setFlags (compareFlags s.flags (s.readReg a) (s.readReg b)))

end Sys2Proof.Machine
end

