-- ==== Sys2Proof/Machine/Control.lean ====
section
/-!
DEFINITION. The meanings of J, HLT and the reserved opcodes (spec/43_control.md). None of them has a register selector, so none
of them can raise `InvalidRegister` or `ProtectedRegisterWrite`.
-/

namespace Sys2Proof.Machine

/-- Whether a J of the given mode is taken when the tested FLAGS bit is `b`: mode 0 if it is clear, mode 1 if it is set, modes
2 to 15 always (R87). -/
def jumpTaken (mode : Nibble) (b : Bool) : Bool :=
  match mode.toNat with
  | 0 => !b
  | 1 => b
  | _ => true

/-- J (R87): a taken jump replaces the pre-incremented PC by the literal. -/
def execJ (mode bit : Nibble) (target : Word) (s : State) : Host.Outcome State Fault Refusal :=
  .next (if jumpTaken mode (getBit s.flags bit.toNat) then s.setPc target else s)

/-- HLT (R89). -/
def execHlt (s : State) : Host.Outcome State Fault Refusal := .next (s.halt .requested)

/-- Reserved opcode 0xB (R90). -/
def execReservedB (s : State) : Host.Outcome State Fault Refusal := .next (s.halt .undefinedOpcode)

/-- Reserved opcode 0xC (R90). -/
def execReservedC (s : State) : Host.Outcome State Fault Refusal := .next (s.halt .undefinedOpcode)

/-- Reserved opcode 0xD (R90). -/
def execReservedD (s : State) : Host.Outcome State Fault Refusal := .next (s.halt .undefinedOpcode)

end Sys2Proof.Machine
end

