-- ==== Sys2Proof/Machine/Move.lean ====
section
/-!
DEFINITION. The meanings of the data movement and output instructions, CPY to LDV (spec/42_move_output.md).
-/

namespace Sys2Proof.Machine

/-- CPY (R82): from the first operand to the second. -/
def execCpy (a b : Sel) (s : State) : Host.Outcome State Fault Refusal :=
  s.complete [a, b] (some b) (s.writeReg b (s.readReg a))

/-- OUT (R83). -/
def execOut (a : Sel) (s : State) : Host.Outcome State Fault Refusal :=
  s.complete [a] none (s.emit (s.readReg a))

/-- MOV (R84): the store instruction. -/
def execMov (a : Sel) (addr : Word) (s : State) : Host.Outcome State Fault Refusal :=
  s.complete [a] none (s.writeData addr (s.readReg a))

/-- LD (R85). -/
def execLd (a : Sel) (addr : Word) (s : State) : Host.Outcome State Fault Refusal :=
  s.complete [a] (some a) (s.writeReg a (s.readData addr))

/-- LDV (R86). -/
def execLdv (a : Sel) (value : Word) (s : State) : Host.Outcome State Fault Refusal :=
  s.complete [a] (some a) (s.writeReg a value)

end Sys2Proof.Machine
end

