-- ==== Sys2Proof/Machine/Dispatch.lean ====
section
/-!
DEFINITION. Dispatch (R71): one arm for each constructor of Instr. Each meaning holds its own checks in the order of R95.
-/

namespace Sys2Proof.Machine

def exec (i : Instr) (s : State) : Host.Outcome State Fault Refusal :=
  match i with
  -- spec/41_alu.md
  | .add a b c => Sys2Proof.Machine.execAdd a b c s
  | .sub a b c => Sys2Proof.Machine.execSub a b c s
  | .not a => Sys2Proof.Machine.execNot a s
  | .and a b => Sys2Proof.Machine.execAnd a b s
  | .or a b => Sys2Proof.Machine.execOr a b s
  | .cmp a b => Sys2Proof.Machine.execCmp a b s
  -- spec/42_move_output.md
  | .cpy a b => Sys2Proof.Machine.execCpy a b s
  | .out a => Sys2Proof.Machine.execOut a s
  | .mov a addr => Sys2Proof.Machine.execMov a addr s
  | .ld a addr => Sys2Proof.Machine.execLd a addr s
  | .ldv a value => Sys2Proof.Machine.execLdv a value s
  -- spec/43_control.md
  | .reservedB => Sys2Proof.Machine.execReservedB s
  | .reservedC => Sys2Proof.Machine.execReservedC s
  | .reservedD => Sys2Proof.Machine.execReservedD s
  | .j mode bit target => Sys2Proof.Machine.execJ mode bit target s
  | .hlt => Sys2Proof.Machine.execHlt s

end Sys2Proof.Machine
end

