-- ==== Sys2Proof/Machine/Step.lean ====
section
/-!
DEFINITION. One request to run a cycle (`step` of R110) and the state in which a given instruction is the next to be fetched.
-/

namespace Sys2Proof.Machine

/-- One cycle (R65): fetch both words, pre-increment the PC, decode, execute with word 2 as the literal. -/
def cycle (s : State) : Host.Outcome State Fault Refusal :=
  exec (decode s.fetchWord1 s.fetchWord2) s.beginCycle

/-- One step. In `Halted` the request is ignored and nothing changes (R64, R110; log entry 7); with no completed load since
power-on it is refused (R107, R111); otherwise one cycle runs (R65). -/
def step (s : State) : Host.Outcome State Fault Refusal :=
  if s.halted then .next s
  else if s.loaded then cycle s
  else .refused .noProgramLoaded

/-- `s` with the instruction whose bits spec/opcode_table.json numbers as `w` stored where the next fetch reads it, in a running
machine with a loaded program (log entry 8). -/
def State.withFetchWord (s : State) (nbits w : Nat) : State :=
  s.placeAtPc (tableWord1 nbits w) (tableWord2 nbits w)

end Sys2Proof.Machine
end

