-- ==== Sys2Proof/Machine/HostPort.lean ====
section
/-!
DEFINITION. The block's interface toward its host (R110, R111): load, reset, step and run as actions between cycles, and what the
host may observe. A host action that is refused changes nothing: the host keeps the state it had (log entry 13).
-/

namespace Sys2Proof.Machine

/-- The code of a halt cause, as the host reads it (R92). -/
def HaltCause.code : HaltCause → Nat
  | .none                   => 0
  | .requested              => 1
  | .undefinedOpcode        => 2
  | .invalidRegister        => 3
  | .protectedRegisterWrite => 4

/-- `Load(words)` (R108): fills `P` with the words from address 0 and the sentinel after them, and writes nothing else. It is
refused once a cycle has run since the last reset, and for more than 65536 words (R108, R111). -/
def hostLoad (words : List Word) (s : State) : Host.Outcome State Fault Refusal :=
  if s.cycles = 0 then
    if words.length ≤ Config.bankWords then .next { s with p := Memory.ofWords 0 words, loaded := true }
    else .refused .loadTooLong
  else .refused .loadDuringRun

/-- The host's requests (R110). `run` is `step` repeated (`runFor` below). -/
inductive HostAction where
  | reset
  | load (words : List Word)
  | step
  deriving DecidableEq, Repr

/-- One host action (R104, R108, R110): reset may be given in Running or in Halted. -/
def hostAct : HostAction → State → Host.Outcome State Fault Refusal
  | .reset,      s => .next s.hostReset
  | .load words, s => hostLoad words s
  | .step,       s => step s

/-- The state the host is left with: the next state, or the state it had where the action is refused (R108, R111). -/
def afterAction (act : HostAction) (s : State) : State :=
  match hostAct act s with
  | .next t    => t
  | .fault _   => s
  | .refused _ => s

/-- A sequence of host actions, refused ones skipped. -/
def afterActions : List HostAction → State → State
  | [],          s => s
  | act :: acts, s => afterActions acts (afterAction act s)

/-- `run` under fuel (R75, R110): `step` until the core is halted or the fuel is spent. -/
def runFor : Nat → State → Host.Outcome State Fault Refusal
  | 0,        s => .next s
  | fuel + 1, s =>
    if s.halted then .next s
    else
      match step s with
      | .next t    => runFor fuel t
      | .fault r   => .fault r
      | .refused r => .refused r

/-- What the host observes of a run besides the two banks (R74, R110): `State.readData` and `State.readProgram` are its view of
those. -/
structure Observation where
  out       : List Word
  halted    : Bool
  causeCode : Nat
  x         : List Word
  cycles    : Nat
  deriving DecidableEq, Repr

/-- The read-only view of R110, which changes nothing. -/
def State.observe (s : State) : Observation where
  out       := s.out
  halted    := s.halted
  causeCode := s.haltCause.code
  x         := s.x.toList
  cycles    := s.cycles

/-- The host's rendering of the output stream: one line for each OUT, "the selected register's value printed as an unsigned
decimal integer" (R83). The newline's bytes are in no source and are left out (log entry 14). -/
def State.outLines (s : State) : List String := s.out.map (fun w => toString w.toNat)

end Sys2Proof.Machine
end

