-- ==== Sys2Proof/WellFormed.lean ====
section
/-!
DEFINITION. When an instruction is well formed for a register file of NREG slots: every register selector its opcode uses
names an existing slot ("A register selector is valid when its value is below NREG", R17; the table of R69).
The decoder does not ask this (R59, R68); the check at execution is Machine/Operands.lean's, written apart from this file.
-/

namespace Sys2Proof.Instr

/-- The register-selector fields each opcode uses, as the table of R69 lists them. -/
def selectors : Instr → List Sel
  | .add a b c  => [a, b, c]
  | .sub a b c  => [a, b, c]
  | .not a      => [a]
  | .and a b    => [a, b]
  | .or a b     => [a, b]
  | .cmp a b    => [a, b]
  | .cpy a b    => [a, b]
  | .out a      => [a]
  | .mov a _    => [a]
  | .ld a _     => [a]
  | .ldv a _    => [a]
  | .reservedB  => []
  | .reservedC  => []
  | .reservedD  => []
  | .j _ _ _    => []
  | .hlt        => []

/-- The destination-register field `d` of each opcode, as the table of R70 lists it. -/
def destination : Instr → Option Sel
  | .add _ _ c  => some c
  | .sub _ _ c  => some c
  | .not a      => some a
  | .and _ _    => none
  | .or _ _     => none
  | .cmp _ _    => none
  | .cpy _ b    => some b
  | .out _      => none
  | .mov _ _    => none
  | .ld a _     => some a
  | .ldv a _    => some a
  | .reservedB  => none
  | .reservedC  => none
  | .reservedD  => none
  | .j _ _ _    => none
  | .hlt        => none

/-- Well formed for `NREG = n`: every selector the opcode uses is below `n` (R17, R69). -/
def wellFormed (n : Nat) (i : Instr) : Bool :=
  i.selectors.all (fun r => decide (r.toNat < n))

end Sys2Proof.Instr
end

