-- ==== Sys2Proof/Safety.lean ====
section
/-!
DEFINITION. The terms in which claims about the core are stated: when operands exist and may be written, what an instruction
leaves unchanged, how it halts, which bits of a word pair matter, the machine's invariant, and observable equality.
-/

namespace Sys2Proof.Machine

/-- Every selector of the list names an existing slot: the check of R69. -/
abbrev SelectorsExist (s : State) (used : List Sel) : Prop := ∀ r ∈ used, r.toNat < s.nreg

/-- The destination `d` may be written: the policy is `write`, or `d` is neither the PC nor FLAGS (R19, R70). -/
abbrev DestinationAllowed (s : State) (d : Sel) : Prop := s.params.slotPolicy = .write ∨ (d ≠ 0 ∧ d ≠ 1)

/-- The next `step` runs a cycle: the core is not halted (R64) and a program has been loaded (R111). -/
abbrev Ready (s : State) : Prop := s.halted = false ∧ s.loaded = true

/-- Every slot but the ones listed reads as before. -/
def RegsKeptExcept (written : List Sel) (s t : State) : Prop := ∀ r : Sel, r ∉ written → t.readReg r = s.readReg r

/-- Every Data Store address reads as before. -/
def DataKept (s t : State) : Prop := ∀ a : Word, t.readData a = s.readData a

/-- Every Program Store address reads as before. -/
def ProgramKept (s t : State) : Prop := ∀ a : Word, t.readProgram a = s.readProgram a

/-- The halt state, the parameters, the Program Store and the host's bookkeeping are unchanged. -/
structure ControlKept (s t : State) : Prop where
  params    : t.params = s.params
  program   : ProgramKept s t
  halted    : t.halted = s.halted
  haltCause : t.haltCause = s.haltCause
  loaded    : t.loaded = s.loaded
  cycles    : t.cycles = s.cycles

/-- From `s` to `t` at most the listed slots change: no other slot, no memory, no output, no halt. -/
structure OnlyRegsChange (written : List Sel) (s t : State) : Prop where
  control : ControlKept s t
  regs    : RegsKeptExcept written s t
  data    : DataKept s t
  out     : t.out = s.out

/-- From `s` to `t` at most the Data Store word at `addr` changes. -/
structure OnlyDataChanges (addr : Word) (s t : State) : Prop where
  control : ControlKept s t
  regs    : RegsKeptExcept [] s t
  data    : ∀ a : Word, a ≠ addr → t.readData a = s.readData a
  out     : t.out = s.out

/-- From `s` to `t` at most the output stream changes. -/
structure OnlyOutputChanges (s t : State) : Prop where
  control : ControlKept s t
  regs    : RegsKeptExcept [] s t
  data    : DataKept s t

/-- The outcome is the halt of `s` with the given cause: the halt flag and the cause are set and nothing else changes (R11, R93). -/
def HaltsWith (cause : HaltCause) (s : State) (o : Host.Outcome State Fault Refusal) : Prop :=
  ∃ t, o = .next t ∧ t.halted = true ∧ t.haltCause = cause ∧ RegsKeptExcept [] s t ∧ DataKept s t ∧ ProgramKept s t ∧
    t.out = s.out ∧ t.params = s.params ∧ t.loaded = s.loaded ∧ t.cycles = s.cycles

/-- The bits of word 1 that an instruction of opcode `op` uses: all but the `x` bits of its pattern (R54). -/
def usedBitsOfWord1 (op : Nibble) : Word :=
  match op.toNat with
  | 0x0 | 0x1             => 0xFFFF#16   -- RRR
  | 0x2                   => 0xFF00#16   -- R_RW
  | 0x3 | 0x4 | 0x5       => 0xFFF0#16   -- RR_F
  | 0x6                   => 0xFFF0#16   -- RR_MOVE
  | 0x7                   => 0xFF00#16   -- R_SRC
  | 0x8                   => 0xFF00#16   -- R_LIT_ST
  | 0x9 | 0xA             => 0xFF00#16   -- R_LIT_LD
  | 0xE                   => 0xFFF0#16   -- JUMP
  | _                     => 0xF000#16   -- NONE: 0xB, 0xC, 0xD and 0xF

/-- The bits of word 2 that an instruction of opcode `op` uses: MOV, LD, LDV and J use the literal, no other does (R53, R54). -/
def usedBitsOfWord2 (op : Nibble) : Word :=
  match op.toNat with
  | 0x8 | 0x9 | 0xA | 0xE => 0xFFFF#16
  | _                     => 0x0000#16

/-- The opcode of word 1, bits 15:12 (R52). -/
def opcodeOf (w1 : Word) : Nibble := w1.extractLsb' 12 4

/-- The invariant of the machine: what holds at power-on and what every step and every host action keeps. -/
structure MachineInv (s : State) : Prop where
  /-- Both banks are in their canonical form, with addresses below 65536 (R35) and no stored sentinel (R44). -/
  dataCanonical     : s.d.wf = true
  programCanonical  : s.p.wf = true ∧ s.p.noSentinel = true
  /-- `halt_cause` "is `None` exactly when `halted` is false" (R28). -/
  causeIffHalted    : s.haltCause = .none ↔ s.halted = false
  /-- Under the `fault` policy the reserved FLAGS bits are 0 (R25) and at most one of GT, EQ and LT is set (R79). -/
  flagsLegal        : s.params.slotPolicy = .fault → s.flags ∈ [0x0000#16, 0x0001#16, 0x0002#16, 0x0004#16]
  /-- Until the first cycle after a reset every register is zero, nothing has been output and the core has not halted (R34, R112). -/
  freshBeforeCycles : s.cycles = 0 → (∀ r : Sel, s.readReg r = 0#16) ∧ s.out = [] ∧ s.halted = false
  /-- No cycle has run before a load has completed (R111). -/
  noCycleBeforeLoad : s.loaded = false → s.cycles = 0

/-- Two machine instances that no instruction and no observation of R110 can tell apart: every register, every word of both
banks, the output, the halt state, the load state and the cycle count are equal. -/
structure ObservablyEqual (s t : State) : Prop where
  params    : t.params = s.params
  regs      : ∀ r : Sel, t.readReg r = s.readReg r
  program   : ∀ a : Word, t.readProgram a = s.readProgram a
  data      : ∀ a : Word, t.readData a = s.readData a
  halted    : t.halted = s.halted
  haltCause : t.haltCause = s.haltCause
  out       : t.out = s.out
  loaded    : t.loaded = s.loaded
  cycles    : t.cycles = s.cycles

end Sys2Proof.Machine
end

