-- ==== Sys2Proof/Certificates/Slice0/Obligations.lean ====
section
/-!
DEFINITION. The statements for the provers: what the numbered rules of spec/ say an instruction or the machine does. In a statement
about `exec` the state `s` is the one the run loop hands to Execute, whose slot 0 already holds `pc0 +16 2` (R67);
`StepRunsDecodedInstruction` ties it to `step`.
-/

open Sys2Proof Sys2Proof.Machine

/-! ### Encoding -/

/-- Decoding the two words of any instruction gives the instruction back, for every value of every operand (R52 to R57, R62). -/
def Obligations.DecodeInvertsEncode : Prop :=
  ∀ i : Instr, decode (encode i).1 (encode i).2 = i

/-- Encoding what a word pair decodes to gives the pair back with its ignored bits cleared: the decoder drops no used bit and
misplaces none (R54, R57, R62). -/
def Obligations.EncodeInvertsDecodeUpToIgnoredBits : Prop :=
  ∀ w1 w2 : Word,
    encode (decode w1 w2) =
      (w1 &&& usedBitsOfWord1 (opcodeOf w1), w2 &&& usedBitsOfWord2 (opcodeOf w1))

/-- R56: "Ignored fields … may hold any value, and the core does not check them. Such a value changes nothing". Two word pairs that
agree on the bits their opcode uses decode to the same instruction, so they execute alike in every state. -/
def Obligations.IgnoredBitsChangeNothing : Prop :=
  ∀ w1 w2 v1 v2 : Word,
    opcodeOf v1 = opcodeOf w1 →
    v1 &&& usedBitsOfWord1 (opcodeOf w1) = w1 &&& usedBitsOfWord1 (opcodeOf w1) →
    v2 &&& usedBitsOfWord2 (opcodeOf w1) = w2 &&& usedBitsOfWord2 (opcodeOf w1) →
    decode v1 v2 = decode w1 w2 ∧ ∀ s : State, exec (decode v1 v2) s = exec (decode w1 w2) s

/-- The encoded words of the spec's programs and tables decode to the instructions they stand for (spec/95, E5 and P2; R57). -/
def Obligations.SampleWordsDecodeAsSpecified : Prop :=
  decode 0x0234#16 0x0000#16 = .add 2 3 4 ∧ decode 0x1343#16 0x0000#16 = .sub 3 4 3 ∧
  decode 0x3230#16 0x0000#16 = .and 2 3 ∧ decode 0x6320#16 0x0000#16 = .cpy 3 2 ∧
  decode 0x8200#16 0x0100#16 = .mov 2 0x0100 ∧ decode 0xE100#16 0x0006#16 = .j 1 0 0x0006 ∧
  decode 0xBFFF#16 0x0000#16 = .reservedB ∧ decode 0xFFFF#16 0xFFFF#16 = .hlt

/-! ### The cycle -/

/-- R65: a cycle fetches `P[pc0]` and `P[pc0 +16 1]`, sets the PC to `pc0 +16 2` and executes the decoded instruction. The state
Execute sees differs from `s` in the PC and in the cycle count alone. -/
def Obligations.StepRunsDecodedInstruction : Prop :=
  ∀ (s : State) (i : Instr), Ready s → decode (s.readProgram s.pc) (s.readProgram (s.pc + 1)) = i →
    step s = exec i s.beginCycle ∧
    s.beginCycle.pc = s.pc + 2 ∧ RegsKeptExcept [0] s s.beginCycle ∧ DataKept s s.beginCycle ∧
    ProgramKept s s.beginCycle ∧ s.beginCycle.out = s.out ∧ s.beginCycle.halted = s.halted ∧
    s.beginCycle.haltCause = s.haltCause ∧ s.beginCycle.params = s.params ∧ s.beginCycle.loaded = s.loaded ∧
    s.beginCycle.cycles = s.cycles + 1

/-- R23: at the top of the Program Store the PC wraps. `pc0 = 0xFFFE` advances to 0x0000; `pc0 = 0xFFFF` takes word 2 from address
0x0000 and advances to 0x0001; no fault arises. -/
def Obligations.FetchAndPcWrapAtTheTop : Prop :=
  (∀ s : State, Ready s → s.pc = 0xFFFE#16 →
    s.beginCycle.pc = 0x0000#16 ∧
    step s = exec (decode (s.readProgram 0xFFFE#16) (s.readProgram 0xFFFF#16)) s.beginCycle) ∧
  (∀ s : State, Ready s → s.pc = 0xFFFF#16 →
    s.beginCycle.pc = 0x0001#16 ∧
    step s = exec (decode (s.readProgram 0xFFFF#16) (s.readProgram 0x0000#16)) s.beginCycle)

/-- R61: 0xFFFF decodes as HLT whatever follows it; the word 0x0000 decodes as `ADD r0, r0, r0`, which raises
`ProtectedRegisterWrite` under `fault` and sets the PC to `(pc0 +16 2) +16 (pc0 +16 2)` under `write`. -/
def Obligations.ZeroWordAddsThePcToItself : Prop :=
  (∀ w2 : Word, decode 0xFFFF#16 w2 = .hlt) ∧
  (∀ w2 : Word, decode 0x0000#16 w2 = .add 0 0 0) ∧
  (∀ s : State, Ready s → s.readProgram s.pc = 0x0000#16 → s.params.slotPolicy = .fault →
    HaltsWith .protectedRegisterWrite s.beginCycle (step s)) ∧
  (∀ s : State, Ready s → s.readProgram s.pc = 0x0000#16 → s.params.slotPolicy = .write →
    ∃ t, step s = .next t ∧ t.pc = (s.pc + 2) + (s.pc + 2) ∧ OnlyRegsChange [0] s.beginCycle t)

/-- In `Halted` nothing changes, however many steps are asked for (R64, R110). That a step in `Halted` answers the same state,
rather than none, is the model's reading of R110's "ignored when `halted`" (log entry 7). -/
def Obligations.HaltedCoreIgnoresSteps : Prop :=
  ∀ (k : Nat) (s : State), s.halted = true → Sys2Proof.core.run k s = .next s ∧ runFor k s = .next s

/-- "A `step` with no completed load since power-on is refused" (R111, R107), in a core that is not halted. -/
def Obligations.StepBeforeLoadIsRefused : Prop :=
  ∀ s : State, s.halted = false → s.loaded = false → step s = .refused .noProgramLoaded

/-- R116: "Each instruction takes exactly one cycle of the run loop, whatever its opcode, operands or outcome, and the halting
instruction is counted as one cycle": every word pair fetched gives a next state, with the cycle counted. -/
def Obligations.EveryCycleAnswersAndIsCounted : Prop :=
  ∀ s : State, Ready s → ∃ t, step s = .next t ∧ t.cycles = s.cycles + 1

/-! ### ALU and comparison instructions -/

/-- R76, ADD: the sum modulo 65536 goes to C and nothing else changes; an invalid selector or a protected destination halts with
no effect. -/
def Obligations.AddStoresTheSumModulo65536 : Prop :=
  ∀ (a b c : Sel) (lit : Word) (s : State),
    decode (0x0#4 ++ a ++ b ++ c) lit = .add a b c ∧
    (¬ SelectorsExist s [a, b, c] → HaltsWith .invalidRegister s (exec (.add a b c) s)) ∧
    (SelectorsExist s [a, b, c] → ¬ DestinationAllowed s c →
      HaltsWith .protectedRegisterWrite s (exec (.add a b c) s)) ∧
    (SelectorsExist s [a, b, c] → DestinationAllowed s c →
      ∃ t, exec (.add a b c) s = .next t ∧
        (t.readReg c).toNat = ((s.readReg a).toNat + (s.readReg b).toNat) % 65536 ∧ OnlyRegsChange [c] s t)

/-- R77, SUB: `x[A]` minus `x[B]` modulo 65536 goes to C and nothing else changes; the checks are ADD's. -/
def Obligations.SubStoresTheDifferenceModulo65536 : Prop :=
  ∀ (a b c : Sel) (lit : Word) (s : State),
    decode (0x1#4 ++ a ++ b ++ c) lit = .sub a b c ∧
    (¬ SelectorsExist s [a, b, c] → HaltsWith .invalidRegister s (exec (.sub a b c) s)) ∧
    (SelectorsExist s [a, b, c] → ¬ DestinationAllowed s c →
      HaltsWith .protectedRegisterWrite s (exec (.sub a b c) s)) ∧
    (SelectorsExist s [a, b, c] → DestinationAllowed s c →
      ∃ t, exec (.sub a b c) s = .next t ∧
        (t.readReg c).toNat = ((s.readReg a).toNat + 65536 - (s.readReg b).toNat) % 65536 ∧ OnlyRegsChange [c] s t)

/-- R78, NOT: A is replaced by its bitwise complement and nothing else changes; f3, f4 and word 2 are ignored. -/
def Obligations.NotComplementsInPlace : Prop :=
  ∀ (a f3 f4 : Nibble) (lit : Word) (s : State),
    decode (0x2#4 ++ a ++ f3 ++ f4) lit = .not a ∧
    (¬ SelectorsExist s [a] → HaltsWith .invalidRegister s (exec (.not a) s)) ∧
    (SelectorsExist s [a] → ¬ DestinationAllowed s a → HaltsWith .protectedRegisterWrite s (exec (.not a) s)) ∧
    (SelectorsExist s [a] → DestinationAllowed s a →
      ∃ t, exec (.not a) s = .next t ∧ t.readReg a = s.readReg a ^^^ 0xFFFF#16 ∧ OnlyRegsChange [a] s t)

/-- R79, AND: FLAGS becomes `(x[1] & 0xFFF8) | ((r != 0) ? 0x0002 : 0x0000)` for `r = x[A] & x[B]`; no other register is written and
`ProtectedRegisterWrite` does not apply. -/
def Obligations.AndSetsTheTruthFlag : Prop :=
  ∀ (a b f4 : Nibble) (lit : Word) (s : State),
    decode (0x3#4 ++ a ++ b ++ f4) lit = .and a b ∧
    (¬ SelectorsExist s [a, b] → HaltsWith .invalidRegister s (exec (.and a b) s)) ∧
    (SelectorsExist s [a, b] →
      ∃ t, exec (.and a b) s = .next t ∧
        t.readReg 1 = (s.readReg 1 &&& 0xFFF8#16) |||
          (if s.readReg a &&& s.readReg b = 0#16 then 0x0000#16 else 0x0002#16) ∧
        OnlyRegsChange [1] s t)

/-- R80, OR: as AND with `r = x[A] | x[B]`. -/
def Obligations.OrSetsTheTruthFlag : Prop :=
  ∀ (a b f4 : Nibble) (lit : Word) (s : State),
    decode (0x4#4 ++ a ++ b ++ f4) lit = .or a b ∧
    (¬ SelectorsExist s [a, b] → HaltsWith .invalidRegister s (exec (.or a b) s)) ∧
    (SelectorsExist s [a, b] →
      ∃ t, exec (.or a b) s = .next t ∧
        t.readReg 1 = (s.readReg 1 &&& 0xFFF8#16) |||
          (if s.readReg a ||| s.readReg b = 0#16 then 0x0000#16 else 0x0002#16) ∧
        OnlyRegsChange [1] s t)

/-- R81, CMP: exactly one of GT, EQ and LT is set, by the unsigned comparison of `x[A]` with `x[B]`; bits 15:3 of FLAGS and every
other register are unchanged. -/
def Obligations.CmpSetsExactlyOneFlag : Prop :=
  ∀ (a b f4 : Nibble) (lit : Word) (s : State),
    decode (0x5#4 ++ a ++ b ++ f4) lit = .cmp a b ∧
    (¬ SelectorsExist s [a, b] → HaltsWith .invalidRegister s (exec (.cmp a b) s)) ∧
    (SelectorsExist s [a, b] →
      ∃ t, exec (.cmp a b) s = .next t ∧
        t.readReg 1 = (s.readReg 1 &&& 0xFFF8#16) |||
          (if (s.readReg b).toNat < (s.readReg a).toNat then 0x0001#16
           else if (s.readReg a).toNat = (s.readReg b).toNat then 0x0002#16 else 0x0004#16) ∧
        OnlyRegsChange [1] s t)

/-! ### Data movement and output -/

/-- R82, CPY: B receives the Word of A and nothing else changes. -/
def Obligations.CpyCopiesFirstToSecond : Prop :=
  ∀ (a b f4 : Nibble) (lit : Word) (s : State),
    decode (0x6#4 ++ a ++ b ++ f4) lit = .cpy a b ∧
    (¬ SelectorsExist s [a, b] → HaltsWith .invalidRegister s (exec (.cpy a b) s)) ∧
    (SelectorsExist s [a, b] → ¬ DestinationAllowed s b →
      HaltsWith .protectedRegisterWrite s (exec (.cpy a b) s)) ∧
    (SelectorsExist s [a, b] → DestinationAllowed s b →
      ∃ t, exec (.cpy a b) s = .next t ∧ t.readReg b = s.readReg a ∧ OnlyRegsChange [b] s t)

/-- OUT (R83): the Word of A is appended to the output stream and nothing else changes. -/
def Obligations.OutAppendsTheRegister : Prop :=
  ∀ (a f3 f4 : Nibble) (lit : Word) (s : State),
    decode (0x7#4 ++ a ++ f3 ++ f4) lit = .out a ∧
    (¬ SelectorsExist s [a] → HaltsWith .invalidRegister s (exec (.out a) s)) ∧
    (SelectorsExist s [a] →
      ∃ t, exec (.out a) s = .next t ∧ t.out = s.out ++ [s.readReg a] ∧ OnlyOutputChanges s t)

/-- R84, MOV: `D[lit]` receives the Word of A; every other address of `D`, all of `P` and every register are unchanged. -/
def Obligations.MovStoresToTheDataStore : Prop :=
  ∀ (a f3 f4 : Nibble) (lit : Word) (s : State),
    decode (0x8#4 ++ a ++ f3 ++ f4) lit = .mov a lit ∧
    (¬ SelectorsExist s [a] → HaltsWith .invalidRegister s (exec (.mov a lit) s)) ∧
    (SelectorsExist s [a] →
      ∃ t, exec (.mov a lit) s = .next t ∧ t.readData lit = s.readReg a ∧ OnlyDataChanges lit s t)

/-- R85, LD: "reg[A] = dataStore.read(addr)", that is, A receives `D[lit]`, and nothing else changes. What an unwritten cell gives is
`LdOfAnUnwrittenCellGivesItsInitialWord`. -/
def Obligations.LdLoadsFromTheDataStore : Prop :=
  ∀ (a f3 f4 : Nibble) (lit : Word) (s : State),
    decode (0x9#4 ++ a ++ f3 ++ f4) lit = .ld a lit ∧
    (¬ SelectorsExist s [a] → HaltsWith .invalidRegister s (exec (.ld a lit) s)) ∧
    (SelectorsExist s [a] → ¬ DestinationAllowed s a → HaltsWith .protectedRegisterWrite s (exec (.ld a lit) s)) ∧
    (SelectorsExist s [a] → DestinationAllowed s a →
      ∃ t, exec (.ld a lit) s = .next t ∧ t.readReg a = s.readData lit ∧ OnlyRegsChange [a] s t)

/-- R86, LDV: A receives the literal whole and nothing else changes. -/
def Obligations.LdvLoadsTheLiteral : Prop :=
  ∀ (a f3 f4 : Nibble) (lit : Word) (s : State),
    decode (0xA#4 ++ a ++ f3 ++ f4) lit = .ldv a lit ∧
    (¬ SelectorsExist s [a] → HaltsWith .invalidRegister s (exec (.ldv a lit) s)) ∧
    (SelectorsExist s [a] → ¬ DestinationAllowed s a → HaltsWith .protectedRegisterWrite s (exec (.ldv a lit) s)) ∧
    (SelectorsExist s [a] → DestinationAllowed s a →
      ∃ t, exec (.ldv a lit) s = .next t ∧ t.readReg a = lit ∧ OnlyRegsChange [a] s t)

/-! ### Control transfer and halt -/

/-- R87, J: the PC becomes the literal when mode 0 finds the FLAGS bit clear, when mode 1 finds it set, and always for modes 2 to
15; otherwise it stays. Nothing else changes, and J raises nothing, whatever the bit. -/
def Obligations.JumpReplacesThePcWhenTaken : Prop :=
  ∀ (mode bit f4 : Nibble) (lit : Word) (s : State),
    decode (0xE#4 ++ mode ++ bit ++ f4) lit = .j mode bit lit ∧
    ∃ t, exec (.j mode bit lit) s = .next t ∧ OnlyRegsChange [0] s t ∧
      t.readReg 0 =
        if mode.toNat = 0 then
          (if (s.readReg 1).toNat / 2 ^ bit.toNat % 2 = 0 then lit else s.readReg 0)
        else if mode.toNat = 1 then
          (if (s.readReg 1).toNat / 2 ^ bit.toNat % 2 = 1 then lit else s.readReg 0)
        else lit

/-- R89, HLT: the core halts with cause `Requested` and no other effect, whatever the ignored fields and word 2 hold. -/
def Obligations.HltHaltsRequested : Prop :=
  ∀ (f2 f3 f4 : Nibble) (lit : Word) (s : State),
    decode (0xF#4 ++ f2 ++ f3 ++ f4) lit = .hlt ∧ HaltsWith .requested s (exec .hlt s)

/-- R90: opcodes 0xB, 0xC and 0xD halt with cause `UndefinedOpcode` and no other effect, whatever their fields and NREG are. -/
def Obligations.ReservedOpcodesHaltUndefined : Prop :=
  ∀ (f2 f3 f4 : Nibble) (lit : Word) (s : State),
    (decode (0xB#4 ++ f2 ++ f3 ++ f4) lit = .reservedB ∧ HaltsWith .undefinedOpcode s (exec .reservedB s)) ∧
    (decode (0xC#4 ++ f2 ++ f3 ++ f4) lit = .reservedC ∧ HaltsWith .undefinedOpcode s (exec .reservedC s)) ∧
    (decode (0xD#4 ++ f2 ++ f3 ++ f4) lit = .reservedD ∧ HaltsWith .undefinedOpcode s (exec .reservedD s))

/-! ### Whole-machine rules -/

/-- The PC after a cycle (R22, spec/95 E3): a J leaves its literal or `pc0 +16 2` as its mode and the FLAGS bit say, and every other
instruction leaves `pc0 +16 2`, halting ones included, unless the policy is `write` and its destination is slot 0. -/
def Obligations.PcAfterEachCycle : Prop :=
  ∀ s t : State, Ready s → step s = .next t →
    (∀ mode bit target, decode (s.readProgram s.pc) (s.readProgram (s.pc + 1)) = .j mode bit target →
      t.pc =
        if mode.toNat = 0 ∧ s.flags.toNat / 2 ^ bit.toNat % 2 = 1 then s.pc + 2
        else if mode.toNat = 1 ∧ s.flags.toNat / 2 ^ bit.toNat % 2 = 0 then s.pc + 2
        else target) ∧
    (∀ i, decode (s.readProgram s.pc) (s.readProgram (s.pc + 1)) = i → (∀ mode bit target, i ≠ .j mode bit target) →
      (s.params.slotPolicy = .fault ∨ i.destination ≠ some 0) → t.pc = s.pc + 2)

/-- The writers of slots 0 and 1 (R19): only J changes the PC and only CMP, AND and OR change FLAGS, but for an instruction whose
destination names the slot under the `write` policy. -/
def Obligations.OnlyPermittedWritersOfPcAndFlags : Prop :=
  ∀ (i : Instr) (s t : State), exec i s = .next t →
    (t.readReg 0 ≠ s.readReg 0 →
      (∃ mode bit, i = .j mode bit (t.readReg 0)) ∨ (s.params.slotPolicy = .write ∧ i.destination = some 0)) ∧
    (t.readReg 1 ≠ s.readReg 1 →
      (∃ a b, i = .cmp a b ∨ i = .and a b ∨ i = .or a b) ∨ (s.params.slotPolicy = .write ∧ i.destination = some 1))

/-- The output stream is one "that only OUT extends" (R29): no instruction shortens or rewrites it. -/
def Obligations.OnlyOutExtendsTheOutput : Prop :=
  ∀ (i : Instr) (s t : State), exec i s = .next t →
    t.out = s.out ∨ ∃ a, i = .out a ∧ t.out = s.out ++ [s.readReg a]

/-- "No instruction writes `P`" (R36, R49): through a run of any length every address of the Program Store reads as before. -/
def Obligations.ProgramStoreIsConstantDuringARun : Prop :=
  ∀ (k : Nat) (s t : State), runFor k s = .next t → ProgramKept s t

/-- "Only MOV writes it" (R37): every other instruction leaves every address of the Data Store as it was, and MOV leaves all but its
own. -/
def Obligations.OnlyMovWritesTheDataStore : Prop :=
  ∀ (i : Instr) (s t : State), exec i s = .next t →
    DataKept s t ∨ ∃ a addr, i = .mov a addr ∧ ∀ b : Word, b ≠ addr → t.readData b = s.readData b

/-- "only LD reads it" (R37): with any other contents of the Data Store, an instruction that is not an LD gives the same registers,
the same output and the same halt state. -/
def Obligations.OnlyLdReadsTheDataStore : Prop :=
  ∀ (i : Instr) (s t : State) (cells : Memory) (draw : Nat), (∀ a addr, i ≠ .ld a addr) → exec i s = .next t →
    ∃ u, exec i { s with d := cells, dataDraw := draw } = .next u ∧
      (∀ r : Sel, u.readReg r = t.readReg r) ∧ u.out = t.out ∧ u.halted = t.halted ∧ u.haltCause = t.haltCause ∧
      ProgramKept t u

/-- R93: an instruction that halts leaves the state as it stood after the pre-increment of the PC, with only `halted` and
`halt_cause` set. That no instruction after it is fetched is said by a further step answering the same state, which is the model's
reading of R64 and of R110's "ignored when `halted`" (log entry 7). -/
def Obligations.HaltsArePreciseAndAtomic : Prop :=
  ∀ s t : State, Ready s → step s = .next t → t.halted = true →
    t = { s.beginCycle with halted := true, haltCause := t.haltCause } ∧ t.haltCause ≠ .none ∧ step t = .next t

/-- R95: the opcode class first, then `InvalidRegister`, then `ProtectedRegisterWrite`; an instruction none of them applies to runs
on, its halt state untouched. -/
def Obligations.HaltCauseFollowsPriority : Prop :=
  ∀ (i : Instr) (s : State),
    (i = .reservedB ∨ i = .reservedC ∨ i = .reservedD → HaltsWith .undefinedOpcode s (exec i s)) ∧
    (i = .hlt → HaltsWith .requested s (exec i s)) ∧
    (i.wellFormed s.nreg = false → HaltsWith .invalidRegister s (exec i s)) ∧
    (i.wellFormed s.nreg = true → (∃ d, i.destination = some d ∧ ¬ DestinationAllowed s d) →
      HaltsWith .protectedRegisterWrite s (exec i s)) ∧
    (i.wellFormed s.nreg = true → (∀ d, i.destination = some d → DestinationAllowed s d) →
      i ≠ .reservedB → i ≠ .reservedC → i ≠ .reservedD → i ≠ .hlt →
      ∃ t, exec i s = .next t ∧ t.halted = s.halted ∧ t.haltCause = s.haltCause)

/-- The instruction executed right after a MOV, in the state that the run loop makes of the MOV's (R65, R67), finds the store done
(R38, R47, R113): an LD of the same address loads the Word stored, and an LD of another address loads what was there before. -/
def Obligations.MovThenLdReturnsTheStoredWord : Prop :=
  ∀ (a b : Sel) (addr other : Word) (s : State), SelectorsExist s [a, b] → DestinationAllowed s b →
    ∃ t, exec (.mov a addr) s = .next t ∧
      (∃ u, exec (.ld b addr) t.beginCycle = .next u ∧ u.readReg b = s.readReg a) ∧
      (other ≠ addr → ∃ u, exec (.ld b other) t.beginCycle = .next u ∧ u.readReg b = s.readData other)

/-- "Each cell holds its initial Word until the first MOV to it" (R45), and an LD returns the Word of the most recent MOV (R47):
through a run of any length in which no cycle executes a MOV to `a`, the word of `D` at `a` stays what it was. -/
def Obligations.DataWordHoldsUntilItsNextMov : Prop :=
  ∀ (a : Word) (k : Nat) (s t : State),
    (∀ (n : Nat) (u : State), n < k → runFor n s = .next u →
      ∀ r : Sel, decode (u.readProgram u.pc) (u.readProgram (u.pc + 1)) ≠ .mov r a) →
    runFor k s = .next t → t.readData a = s.readData a

/-- An LD of a cell that no MOV has written since power-on gives its `DATA_INIT` Word (R45, R85, spec/95 V7.6): from power-on with
any program loaded, after a run of any length in which no cycle executes a MOV to `a`, an LD of `a` executed next gives the Word of
the draw the core was powered on with. That `DATA_INIT` is a free value with one function for each draw is log entry 3. -/
def Obligations.LdOfAnUnwrittenCellGivesItsInitialWord : Prop :=
  ∀ (params : Params) (draw : Nat) (words : List Word) (a : Word) (r : Sel) (k : Nat) (s t : State),
    hostLoad words (State.powerOn params draw) = .next s →
    (∀ (n : Nat) (u : State), n < k → runFor n s = .next u →
      ∀ q : Sel, decode (u.readProgram u.pc) (u.readProgram (u.pc + 1)) ≠ .mov q a) →
    runFor k s = .next t → SelectorsExist t [r] → DestinationAllowed t r →
    ∃ u, exec (.ld r a) t.beginCycle = .next u ∧ u.readReg r = Config.dataInit draw a

/-- A CMP may be followed at once by a J that tests its result (R113), with the idioms of R63: bit 0 for greater, bit 1 for equal,
bit 2 for less, and mode 0 on bit 1 for not equal. The J executes in the state that the run loop makes of the CMP's (R65, R67), and
one not taken leaves the PC at the J's own address +16 2 (R22): `s.pc` is the J's address, since `s` is the state after the CMP's own
pre-increment. -/
def Obligations.CompareThenJumpTestsTheNewFlags : Prop :=
  ∀ (a b : Sel) (target : Word) (s : State), SelectorsExist s [a, b] →
    ∃ t, exec (.cmp a b) s = .next t ∧ t.pc = s.pc ∧
      (∃ u, exec (.j 1 0 target) t.beginCycle = .next u ∧
        u.pc = if (s.readReg b).toNat < (s.readReg a).toNat then target else s.pc + 2) ∧
      (∃ u, exec (.j 1 1 target) t.beginCycle = .next u ∧
        u.pc = if s.readReg a = s.readReg b then target else s.pc + 2) ∧
      (∃ u, exec (.j 1 2 target) t.beginCycle = .next u ∧
        u.pc = if (s.readReg a).toNat < (s.readReg b).toNat then target else s.pc + 2) ∧
      (∃ u, exec (.j 0 1 target) t.beginCycle = .next u ∧
        u.pc = if s.readReg a = s.readReg b then s.pc + 2 else target)

/-! ### Reset, load and the host's requests -/

/-- Power-on (R34, R104, R105) leaves the registers zero, the core running, the output empty, the Data Store at `DATA_INIT` and no
program loaded, so that the first step is refused (R107, R111). That `DATA_INIT` is a free value with one function for each draw, the
draw an argument, is the model's choice (log entry 3). -/
def Obligations.PowerOnState : Prop :=
  ∀ (params : Params) (draw : Nat),
    (∀ r : Sel, (State.powerOn params draw).readReg r = 0#16) ∧
    (State.powerOn params draw).halted = false ∧ (State.powerOn params draw).haltCause = .none ∧
    (State.powerOn params draw).out = [] ∧
    (∀ a : Word, (State.powerOn params draw).readData a = Config.dataInit draw a) ∧
    (State.powerOn params draw).loaded = false ∧
    step (State.powerOn params draw) = .refused .noProgramLoaded

/-- R104 and R106: reset, in Running or in Halted, zeroes every register, clears the halt state and the output, keeps the Program
Store, and keeps the Data Store under `keep` or makes it the next draw of the free value `DATA_INIT` under `redraw` (log entry 3). No
cycle has then run since the last reset, so that a load is allowed again (R108, R111): the cycle count is 0 (log entry 9). -/
def Obligations.ResetReinitialisesAllButTheProgram : Prop :=
  ∀ s : State, ∃ t, hostAct .reset s = .next t ∧
    (∀ r : Sel, t.readReg r = 0#16) ∧ t.halted = false ∧ t.haltCause = .none ∧ t.out = [] ∧
    (s.params.resetData = .keep → DataKept s t) ∧
    (s.params.resetData = .redraw → ∀ a : Word, t.readData a = Config.dataInit (s.dataDraw + 1) a) ∧
    ProgramKept s t ∧ t.params = s.params ∧ t.loaded = s.loaded ∧ t.cycles = 0

/-- R108: before the first cycle since reset, a load of at most 65536 words fills `P` with them from address 0 and with 0xFFFF after
them, and writes only `P`; any other load is refused. -/
def Obligations.LoadFillsTheProgramStore : Prop :=
  ∀ (words : List Word) (s : State),
    (s.cycles = 0 → words.length ≤ 65536 →
      ∃ t, hostLoad words s = .next t ∧
        (∀ a : Word, t.readProgram a = (words[a.toNat]?).getD 0xFFFF#16) ∧
        t.loaded = true ∧ RegsKeptExcept [] s t ∧ DataKept s t ∧ t.halted = s.halted ∧ t.haltCause = s.haltCause ∧
        t.out = s.out ∧ t.params = s.params ∧ t.cycles = s.cycles) ∧
    (s.cycles = 0 → 65536 < words.length → hostLoad words s = .refused .loadTooLong ∧ afterAction (.load words) s = s) ∧
    (s.cycles ≠ 0 → hostLoad words s = .refused .loadDuringRun ∧ afterAction (.load words) s = s)

/-- A fetch from beyond the loaded words halts with cause `Requested` (R44, R88): at any later point of the run in which the PC has
left the program, the next step halts so. -/
def Obligations.StrayFetchHaltsRequested : Prop :=
  ∀ (words : List Word) (s t u : State) (k : Nat), hostLoad words s = .next t → runFor k t = .next u →
    u.halted = false → words.length ≤ u.pc.toNat → HaltsWith .requested u.beginCycle (step u)

/-- The parameters of an instance never change, whatever the host does (R33: "these are not state"; that `State` carries them is
the model's choice, log entry 1). -/
def Obligations.ParametersNeverChange : Prop :=
  ∀ (acts : List HostAction) (s : State), (afterActions acts s).params = s.params

/-! ### Invariants and equivalence -/

/-- Every step keeps the machine's invariant, from every state that has it: the rules' part is R25, R28, R34, R79, R111 and R112; the
canonical form of the two banks' lists is the model's choice (log entry 5). -/
def Obligations.StepKeepsTheMachineInvariant : Prop :=
  ∀ s t : State, MachineInv s → step s = .next t → MachineInv t

/-- Power-on has the invariant (its canonical form of the banks is the model's choice, log entry 5), for every choice of the
parameters and every draw of `DATA_INIT`; so has `State.reset`. -/
def Obligations.PowerOnSatisfiesTheInvariant : Prop :=
  (∀ (params : Params) (draw : Nat), MachineInv (State.powerOn params draw)) ∧ MachineInv State.reset

/-- Reset, load and step, refused or not, keep the invariant. Its canonical form of the banks is the model's choice (log entry 5), and
so is the form in which a refused action leaves the host the state it had (log entry 13). -/
def Obligations.HostActionsKeepTheInvariant : Prop :=
  ∀ (act : HostAction) (s : State), MachineInv s → MachineInv (afterAction act s)

/-- From power-on, no sequence of host actions reaches a state in which a core of policy `fault` has a reserved FLAGS bit or two of
GT, EQ and LT set, in which `halt_cause` and `halted` disagree, or in which a bank has left its canonical form, which is the model's choice (log entry 5). -/
def Obligations.ReachableStatesSatisfyTheInvariant : Prop :=
  ∀ (params : Params) (draw : Nat) (acts : List HostAction), MachineInv (afterActions acts (State.powerOn params draw))

/-- Observably equal instances stay so: nothing that the host cannot observe, and no history of how the Data Store came to hold
its Words, influences a step (R31, R33, R42). -/
def Obligations.ObservablyEqualStatesStepAlike : Prop :=
  ∀ s t s' : State, ObservablyEqual s t → step s = .next s' → ∃ t', step t = .next t' ∧ ObservablyEqual s' t'

/-- Idempotence (spec/95, E6): reset and load of the same words give the same run again, from whatever two states of one
configuration, where the Data Store is the same after both resets. -/
def Obligations.ReplayAfterResetAndLoad : Prop :=
  ∀ (s t : State) (words : List Word) (k : Nat), t.params = s.params → words.length ≤ 65536 →
    (∀ a : Word, t.hostReset.readData a = s.hostReset.readData a) →
    ∃ s' t', runFor k (afterActions [.reset, .load words] s) = .next s' ∧
      runFor k (afterActions [.reset, .load words] t) = .next t' ∧ ObservablyEqual s' t'
end

