-- ==== Sys2Proof/Laws/Decode.lean ====
section
/-!
SUPPORT. The fields of a joined word, and a word from its fields (R52).
-/

namespace Sys2Proof

variable (op f2 f3 f4 : Nibble)

/-- Splitting a joined word gives its four fields back (R52). -/
theorem splitWord_joinWord : splitWord (joinWord op f2 f3 f4) = ⟨op, f2, f3, f4⟩ := by
  simp only [splitWord, joinWord, Fields.mk.injEq]
  refine ⟨?_, ?_, ?_, ?_⟩ <;> ext i hi <;>
    simp only [BitVec.getElem_extractLsb', BitVec.getLsbD_append] <;> interval_cases i <;> simp

/-- Joining the four fields of a word gives the word back (R52). -/
theorem joinWord_splitWord (w : Word) :
    joinWord (splitWord w).op (splitWord w).f2 (splitWord w).f3 (splitWord w).f4 = w := by
  refine BitVec.eq_of_getLsbD_eq fun i hi => ?_
  simp only [splitWord, joinWord, BitVec.getLsbD_append, BitVec.getLsbD_extractLsb']
  interval_cases i <;> simp

/-- What the decoder reads from a word given by its fields. -/
theorem decode_joinWord (lit : Word) : decode (joinWord op f2 f3 f4) lit = decodeFields ⟨op, f2, f3, f4⟩ lit := by
  rw [decode, splitWord_joinWord]

/-- The table's numbering of one instruction's bits (both words given): the low half is word 1, the high half word 2. -/
theorem tableWords (w1 w2 : Word) :
    tableWord1 32 (w1.toNat + 65536 * w2.toNat) = w1 ∧ tableWord2 32 (w1.toNat + 65536 * w2.toNat) = w2 := by
  have h1 := w1.isLt
  have h2 := w2.isLt
  constructor <;> apply BitVec.eq_of_toNat_eq <;> simp only [tableWord1, tableWord2, BitVec.toNat_ofNat] <;> omega

end Sys2Proof
end

