-- ==== Sys2Proof/Laws/Flags.lean ====
section
/-!
SUPPORT. The closed forms the spec gives beside its flag pseudocode (R79, R80, R81).
-/

namespace Sys2Proof.Machine

/-- A Word with bits 2:0 cleared, as the three `setBit` calls of R81 do it. -/
theorem setBit_clear_low (f : Word) :
    setBit (setBit (setBit f gtBit false) eqBit false) ltBit false = f &&& 0xFFF8#16 := by
  ext i hi
  interval_cases i <;> simp [setBit, gtBit, eqBit, ltBit]

/-- R81: FLAGS after CMP is `(x[1] & 0xFFF8) | {0x0001, 0x0002, 0x0004}`. -/
theorem compareFlags_eq (f a b : Word) :
    compareFlags f a b =
      (f &&& 0xFFF8#16) ||| (if b.toNat < a.toNat then 0x0001#16 else if a = b then 0x0002#16 else 0x0004#16) := by
  simp only [compareFlags, setBit_clear_low, BitVec.lt_def]
  split
  · rfl
  · split <;> rfl

/-- R79 and R80: FLAGS after AND or OR is `(x[1] & 0xFFF8) | ((r != 0) ? 0x0002 : 0x0000)`. -/
theorem truthFlags_eq (f r : Word) :
    truthFlags f r = (f &&& 0xFFF8#16) ||| (if r = 0#16 then 0x0000#16 else 0x0002#16) := by
  by_cases hr : r = 0#16
  · subst hr
    ext i hi
    interval_cases i <;> simp [truthFlags, setBit, gtBit, eqBit, ltBit]
  · have ht : truthFlags f r = setBit (setBit (setBit f gtBit false) ltBit false) eqBit true := by
      simp [truthFlags, hr]
    rw [ht, if_neg hr]
    ext i hi
    interval_cases i <;> simp [setBit, gtBit, eqBit, ltBit]

/-- `getBit` as arithmetic. -/
theorem getBit_eq (w : Word) (p : Nat) : getBit w p = decide (w.toNat / 2 ^ p % 2 = 1) := by
  rw [getBit, BitVec.getLsbD, Nat.testBit_eq_decide_div_mod_eq]

end Sys2Proof.Machine
end

