-- ==== Sys2Proof/Laws/Memory.lean ====
section
/-!
SUPPORT. The laws of a bank's cells: read after write, and that every operation keeps the canonical form.
-/

namespace Sys2Proof.Machine.Memory

variable {m : Memory} {a b lo : Nat} {v : Word}

@[simp] theorem find?_nil : Memory.find? a [] = none := rfl

theorem find?_cons (w : Word) : Memory.find? a ((b, w) :: m) = if a = b then some w else m.find? a := rfl

theorem risesFrom_cons (w : Word) :
    Memory.risesFrom lo ((b, w) :: m) = true ↔ lo ≤ b ∧ m.risesFrom (b + 1) = true := by
  simp [Memory.risesFrom]

theorem risesFrom_mono {lo' : Nat} (h : m.risesFrom lo = true) (hle : lo' ≤ lo) : m.risesFrom lo' = true := by
  cases m with
  | nil => rfl
  | cons cell m =>
    rw [risesFrom_cons] at h ⊢
    exact ⟨hle.trans h.1, h.2⟩

/-- An address below the first one a rising bank may list is unlisted. -/
theorem find?_below (h : m.risesFrom lo = true) (ha : a < lo) : m.find? a = none := by
  induction m generalizing lo with
  | nil => rfl
  | cons cell m ih =>
    rw [risesFrom_cons] at h
    rw [find?_cons, if_neg (by omega)]
    exact ih h.2 (by omega)

/-- Reading the cell just written gives the Word written. -/
theorem find?_put_same : (m.put a v).find? a = some v := by
  induction m with
  | nil => simp [Memory.put, find?_cons]
  | cons cell m ih =>
    unfold Memory.put
    split
    · simp [find?_cons]
    · split
      · simp [find?_cons]
      · rename_i hne
        rw [find?_cons, if_neg hne]
        exact ih

/-- A write changes no other cell. -/
theorem find?_put_other (h : b ≠ a) : (m.put a v).find? b = m.find? b := by
  induction m with
  | nil => simp [Memory.put, find?_cons, h]
  | cons cell m ih =>
    unfold Memory.put
    split
    · rw [find?_cons, if_neg h]
    · split
      · rename_i heq
        rw [find?_cons, if_neg h, find?_cons, if_neg (heq ▸ h)]
      · rw [find?_cons, ih, find?_cons]

theorem find?_remove_same (h : m.risesFrom lo = true) : (m.remove a).find? a = none := by
  induction m generalizing lo with
  | nil => rfl
  | cons cell m ih =>
    rw [risesFrom_cons] at h
    unfold Memory.remove
    split
    · rename_i heq
      exact find?_below h.2 (by omega)
    · rename_i hne
      rw [find?_cons, if_neg hne]
      exact ih h.2

theorem find?_remove_other (h : b ≠ a) : (m.remove a).find? b = m.find? b := by
  induction m with
  | nil => rfl
  | cons cell m ih =>
    unfold Memory.remove
    split
    · rename_i heq
      rw [find?_cons, if_neg (heq ▸ h)]
    · rw [find?_cons, ih, find?_cons]

theorem risesFrom_put (h : m.risesFrom lo = true) (ha : lo ≤ a) : (m.put a v).risesFrom lo = true := by
  induction m generalizing lo with
  | nil => simpa [Memory.put, Memory.risesFrom] using ha
  | cons cell m ih =>
    rw [risesFrom_cons] at h
    unfold Memory.put
    split
    · rw [risesFrom_cons, risesFrom_cons]
      exact ⟨ha, by omega, h.2⟩
    · split
      · rename_i heq
        rw [risesFrom_cons]
        exact ⟨ha, heq ▸ h.2⟩
      · rw [risesFrom_cons]
        exact ⟨h.1, ih h.2 (by omega)⟩

theorem risesFrom_remove (h : m.risesFrom lo = true) : (m.remove a).risesFrom lo = true := by
  induction m generalizing lo with
  | nil => rfl
  | cons cell m ih =>
    rw [risesFrom_cons] at h
    unfold Memory.remove
    split
    · exact risesFrom_mono h.2 (by omega)
    · rw [risesFrom_cons]
      exact ⟨h.1, ih h.2⟩

/-- A cell listed after a write is the written one or was listed before. -/
theorem mem_put {cell : Nat × Word} (h : cell ∈ m.put a v) : cell = (a, v) ∨ cell ∈ m := by
  induction m with
  | nil => simpa [Memory.put] using h
  | cons head m ih =>
    unfold Memory.put at h
    split at h
    · simpa using h
    · split at h
      · rcases List.mem_cons.1 h with h | h
        · exact .inl h
        · exact .inr (List.mem_cons_of_mem _ h)
      · rcases List.mem_cons.1 h with h | h
        · exact .inr (h ▸ List.mem_cons_self)
        · exact (ih h).imp_right (List.mem_cons_of_mem _)

theorem mem_remove {cell : Nat × Word} (h : cell ∈ m.remove a) : cell ∈ m := by
  induction m with
  | nil => exact h
  | cons head m ih =>
    unfold Memory.remove at h
    split at h
    · exact List.mem_cons_of_mem _ h
    · rcases List.mem_cons.1 h with h | h
      · exact h ▸ List.mem_cons_self
      · exact List.mem_cons_of_mem _ (ih h)

theorem wf_iff : m.wf = true ↔ m.risesFrom 0 = true ∧ ∀ cell ∈ m, cell.1 < Config.bankWords := by
  simp [Memory.wf]

theorem noSentinel_iff : m.noSentinel = true ↔ ∀ cell ∈ m, cell.2 ≠ Config.sentinel := by
  simp [Memory.noSentinel]

@[simp] theorem wf_nil : Memory.wf [] = true := rfl

@[simp] theorem noSentinel_nil : Memory.noSentinel [] = true := rfl

/-- A write to an address of the bank keeps the canonical form. -/
theorem wf_put (h : m.wf = true) (ha : a < Config.bankWords) : (m.put a v).wf = true := by
  rw [wf_iff] at h ⊢
  refine ⟨risesFrom_put h.1 (Nat.zero_le a), fun cell hc => ?_⟩
  rcases mem_put hc with rfl | hc
  · exact ha
  · exact h.2 cell hc

theorem wf_remove (h : m.wf = true) : (m.remove a).wf = true := by
  rw [wf_iff] at h ⊢
  exact ⟨risesFrom_remove h.1, fun cell hc => h.2 cell (mem_remove hc)⟩

theorem wf_putProgram (h : m.wf = true) (ha : a < Config.bankWords) : (m.putProgram a v).wf = true := by
  unfold Memory.putProgram
  split
  · exact wf_remove h
  · exact wf_put h ha

theorem noSentinel_putProgram (h : m.noSentinel = true) : (m.putProgram a v).noSentinel = true := by
  rw [noSentinel_iff] at h ⊢
  intro cell hc
  unfold Memory.putProgram at hc
  split at hc
  · exact h cell (mem_remove hc)
  · rename_i hv
    rcases mem_put hc with rfl | hc
    · exact hv
    · exact h cell hc

/-- What a Program Store cell reads as after a Word is put into it. -/
theorem find?_putProgram_same (h : m.wf = true) :
    ((m.putProgram a v).find? a).getD Config.sentinel = v := by
  unfold Memory.putProgram
  split
  · rename_i hv
    rw [find?_remove_same (wf_iff.1 h).1]
    exact hv.symm
  · rw [find?_put_same]
    rfl

theorem find?_putProgram_other (h : b ≠ a) : (m.putProgram a v).find? b = m.find? b := by
  unfold Memory.putProgram
  split
  · exact find?_remove_other h
  · exact find?_put_other h

/-! ### The cells of a loaded program -/

variable {ws : List Word}

theorem risesFrom_ofWords : (Memory.ofWords a ws).risesFrom a = true := by
  induction ws generalizing a with
  | nil => rfl
  | cons w ws ih =>
    unfold Memory.ofWords
    split
    · exact risesFrom_mono ih (Nat.le_succ a)
    · rw [risesFrom_cons]
      exact ⟨le_rfl, ih⟩

theorem mem_ofWords {cell : Nat × Word} (h : cell ∈ Memory.ofWords a ws) :
    cell.1 < a + ws.length ∧ cell.2 ≠ Config.sentinel := by
  induction ws generalizing a with
  | nil => cases h
  | cons w ws ih =>
    unfold Memory.ofWords at h
    rw [List.length_cons]
    split at h
    · exact ⟨by have := (ih h).1; omega, (ih h).2⟩
    · rename_i hw
      rcases List.mem_cons.1 h with rfl | h
      · exact ⟨by simp, hw⟩
      · exact ⟨by have := (ih h).1; omega, (ih h).2⟩

theorem wf_ofWords (h : ws.length ≤ Config.bankWords) : (Memory.ofWords 0 ws).wf = true := by
  rw [wf_iff]
  exact ⟨risesFrom_ofWords, fun cell hc => by have := (mem_ofWords hc).1; omega⟩

theorem noSentinel_ofWords : (Memory.ofWords a ws).noSentinel = true := by
  rw [noSentinel_iff]
  exact fun cell hc => (mem_ofWords hc).2

/-- The `k`-th address of a loaded program reads the `k`-th word, and the sentinel past the last one. -/
theorem find?_ofWords (k : Nat) :
    ((Memory.ofWords a ws).find? (a + k)).getD Config.sentinel = (ws[k]?).getD Config.sentinel := by
  induction ws generalizing a k with
  | nil => simp [Memory.ofWords]
  | cons w ws ih =>
    unfold Memory.ofWords
    cases k with
    | zero =>
      split
      · rename_i hw
        rw [find?_below risesFrom_ofWords (by omega)]
        simp [hw]
      · simp [find?_cons]
    | succ k =>
      have hk : a + (k + 1) = a + 1 + k := by omega
      rw [hk]
      split
      · simpa using ih (a := a + 1) k
      · rw [find?_cons, if_neg (by omega)]
        simpa using ih (a := a + 1) k

end Sys2Proof.Machine.Memory
end

