-- ==== Sys2Proof/Laws/State.lean ====
section
/-!
SUPPORT. One lemma for each field under each update of a State, and the laws of the register and bank accessors over them.
-/

namespace Sys2Proof.Machine.State

variable (s : State) (r q : Sel) (v a b : Word) (c : HaltCause)

/-! ### NREG -/

theorem five_le_nreg : 5 ≤ s.nreg := s.params.nreg.property.1

theorem nreg_le_sixteen : s.nreg ≤ 16 := s.params.nreg.property.2

/-! ### Fields under `writeReg` -/

@[simp] theorem writeReg_params : (s.writeReg r v).params = s.params := rfl
@[simp] theorem writeReg_nreg : (s.writeReg r v).nreg = s.nreg := rfl
@[simp] theorem writeReg_p : (s.writeReg r v).p = s.p := rfl
@[simp] theorem writeReg_d : (s.writeReg r v).d = s.d := rfl
@[simp] theorem writeReg_dataDraw : (s.writeReg r v).dataDraw = s.dataDraw := rfl
@[simp] theorem writeReg_halted : (s.writeReg r v).halted = s.halted := rfl
@[simp] theorem writeReg_haltCause : (s.writeReg r v).haltCause = s.haltCause := rfl
@[simp] theorem writeReg_out : (s.writeReg r v).out = s.out := rfl
@[simp] theorem writeReg_loaded : (s.writeReg r v).loaded = s.loaded := rfl
@[simp] theorem writeReg_cycles : (s.writeReg r v).cycles = s.cycles := rfl
@[simp] theorem writeReg_readData : (s.writeReg r v).readData a = s.readData a := rfl
@[simp] theorem writeReg_readProgram : (s.writeReg r v).readProgram a = s.readProgram a := rfl

/-! ### Fields under `writeData` -/

@[simp] theorem writeData_params : (s.writeData a v).params = s.params := rfl
@[simp] theorem writeData_nreg : (s.writeData a v).nreg = s.nreg := rfl
@[simp] theorem writeData_x : (s.writeData a v).x = s.x := rfl
@[simp] theorem writeData_p : (s.writeData a v).p = s.p := rfl
@[simp] theorem writeData_d : (s.writeData a v).d = s.d.put a.toNat v := rfl
@[simp] theorem writeData_dataDraw : (s.writeData a v).dataDraw = s.dataDraw := rfl
@[simp] theorem writeData_halted : (s.writeData a v).halted = s.halted := rfl
@[simp] theorem writeData_haltCause : (s.writeData a v).haltCause = s.haltCause := rfl
@[simp] theorem writeData_out : (s.writeData a v).out = s.out := rfl
@[simp] theorem writeData_loaded : (s.writeData a v).loaded = s.loaded := rfl
@[simp] theorem writeData_cycles : (s.writeData a v).cycles = s.cycles := rfl
@[simp] theorem writeData_readReg : (s.writeData a v).readReg r = s.readReg r := rfl
@[simp] theorem writeData_readProgram : (s.writeData a v).readProgram b = s.readProgram b := rfl

/-! ### Fields under `emit` -/

@[simp] theorem emit_params : (s.emit v).params = s.params := rfl
@[simp] theorem emit_nreg : (s.emit v).nreg = s.nreg := rfl
@[simp] theorem emit_x : (s.emit v).x = s.x := rfl
@[simp] theorem emit_p : (s.emit v).p = s.p := rfl
@[simp] theorem emit_d : (s.emit v).d = s.d := rfl
@[simp] theorem emit_dataDraw : (s.emit v).dataDraw = s.dataDraw := rfl
@[simp] theorem emit_halted : (s.emit v).halted = s.halted := rfl
@[simp] theorem emit_haltCause : (s.emit v).haltCause = s.haltCause := rfl
@[simp] theorem emit_out : (s.emit v).out = s.out ++ [v] := rfl
@[simp] theorem emit_loaded : (s.emit v).loaded = s.loaded := rfl
@[simp] theorem emit_cycles : (s.emit v).cycles = s.cycles := rfl
@[simp] theorem emit_readReg : (s.emit v).readReg r = s.readReg r := rfl
@[simp] theorem emit_readData : (s.emit v).readData a = s.readData a := rfl
@[simp] theorem emit_readProgram : (s.emit v).readProgram a = s.readProgram a := rfl

/-! ### Fields under `halt` -/

@[simp] theorem halt_params : (s.halt c).params = s.params := rfl
@[simp] theorem halt_nreg : (s.halt c).nreg = s.nreg := rfl
@[simp] theorem halt_x : (s.halt c).x = s.x := rfl
@[simp] theorem halt_p : (s.halt c).p = s.p := rfl
@[simp] theorem halt_d : (s.halt c).d = s.d := rfl
@[simp] theorem halt_dataDraw : (s.halt c).dataDraw = s.dataDraw := rfl
@[simp] theorem halt_halted : (s.halt c).halted = true := rfl
@[simp] theorem halt_haltCause : (s.halt c).haltCause = c := rfl
@[simp] theorem halt_out : (s.halt c).out = s.out := rfl
@[simp] theorem halt_loaded : (s.halt c).loaded = s.loaded := rfl
@[simp] theorem halt_cycles : (s.halt c).cycles = s.cycles := rfl
@[simp] theorem halt_readReg : (s.halt c).readReg r = s.readReg r := rfl
@[simp] theorem halt_readData : (s.halt c).readData a = s.readData a := rfl
@[simp] theorem halt_readProgram : (s.halt c).readProgram a = s.readProgram a := rfl

/-! ### Fields under `beginCycle` -/

@[simp] theorem beginCycle_params : s.beginCycle.params = s.params := rfl
@[simp] theorem beginCycle_nreg : s.beginCycle.nreg = s.nreg := rfl
@[simp] theorem beginCycle_p : s.beginCycle.p = s.p := rfl
@[simp] theorem beginCycle_d : s.beginCycle.d = s.d := rfl
@[simp] theorem beginCycle_dataDraw : s.beginCycle.dataDraw = s.dataDraw := rfl
@[simp] theorem beginCycle_halted : s.beginCycle.halted = s.halted := rfl
@[simp] theorem beginCycle_haltCause : s.beginCycle.haltCause = s.haltCause := rfl
@[simp] theorem beginCycle_out : s.beginCycle.out = s.out := rfl
@[simp] theorem beginCycle_loaded : s.beginCycle.loaded = s.loaded := rfl
@[simp] theorem beginCycle_cycles : s.beginCycle.cycles = s.cycles + 1 := rfl
@[simp] theorem beginCycle_readData : s.beginCycle.readData a = s.readData a := rfl
@[simp] theorem beginCycle_readProgram : s.beginCycle.readProgram a = s.readProgram a := rfl

/-! ### Fields under `hostReset` -/

@[simp] theorem hostReset_params : s.hostReset.params = s.params := rfl
@[simp] theorem hostReset_nreg : s.hostReset.nreg = s.nreg := rfl
@[simp] theorem hostReset_p : s.hostReset.p = s.p := rfl
@[simp] theorem hostReset_halted : s.hostReset.halted = false := rfl
@[simp] theorem hostReset_haltCause : s.hostReset.haltCause = .none := rfl
@[simp] theorem hostReset_out : s.hostReset.out = [] := rfl
@[simp] theorem hostReset_loaded : s.hostReset.loaded = s.loaded := rfl
@[simp] theorem hostReset_cycles : s.hostReset.cycles = 0 := rfl
@[simp] theorem hostReset_readProgram : s.hostReset.readProgram a = s.readProgram a := rfl

/-! ### Fields under `placeAtPc` -/

@[simp] theorem placeAtPc_params : (s.placeAtPc a b).params = s.params := rfl
@[simp] theorem placeAtPc_x : (s.placeAtPc a b).x = s.x := rfl
@[simp] theorem placeAtPc_d : (s.placeAtPc a b).d = s.d := rfl
@[simp] theorem placeAtPc_dataDraw : (s.placeAtPc a b).dataDraw = s.dataDraw := rfl
@[simp] theorem placeAtPc_halted : (s.placeAtPc a b).halted = false := rfl
@[simp] theorem placeAtPc_haltCause : (s.placeAtPc a b).haltCause = .none := rfl
@[simp] theorem placeAtPc_out : (s.placeAtPc a b).out = s.out := rfl
@[simp] theorem placeAtPc_loaded : (s.placeAtPc a b).loaded = true := rfl
@[simp] theorem placeAtPc_cycles : (s.placeAtPc a b).cycles = s.cycles := rfl
@[simp] theorem placeAtPc_readReg : (s.placeAtPc a b).readReg r = s.readReg r := rfl
@[simp] theorem placeAtPc_pc : (s.placeAtPc a b).pc = s.pc := rfl

/-! ### The register file: read after write (R9) -/

/-- Reading the slot just written gives the Word written, for every slot that exists. -/
theorem readReg_writeReg_same {s : State} {r : Sel} (h : r.toNat < s.nreg) : (s.writeReg r v).readReg r = v := by
  show ((s.x.setIfInBounds r.toNat v)[r.toNat]?).getD 0#16 = v
  have h' : r.toNat < s.params.nreg.val := h
  simp [h']

/-- A write changes no other slot. -/
theorem readReg_writeReg_other {s : State} {r q : Sel} (h : q ≠ r) : (s.writeReg r v).readReg q = s.readReg q := by
  have hn : r.toNat ≠ q.toNat := fun e => h (BitVec.eq_of_toNat_eq e.symm)
  show ((s.x.setIfInBounds r.toNat v)[q.toNat]?).getD 0#16 = (s.x[q.toNat]?).getD 0#16
  rw [Vector.getElem?_setIfInBounds_ne hn]

theorem zero_valid : (0 : Sel).toNat < s.nreg := by have := s.five_le_nreg; simpa using by omega

theorem one_valid : (1 : Sel).toNat < s.nreg := by have := s.five_le_nreg; simpa using by omega

@[simp] theorem pc_setPc : (s.setPc v).pc = v := readReg_writeReg_same v s.zero_valid

@[simp] theorem flags_setFlags : (s.setFlags v).flags = v := readReg_writeReg_same v s.one_valid

/-- R67: the pre-incremented PC. -/
@[simp] theorem beginCycle_pc : s.beginCycle.pc = s.pc + 2 := pc_setPc s (s.pc + 2)

theorem beginCycle_readReg {s : State} {r : Sel} (h : r ≠ 0) : s.beginCycle.readReg r = s.readReg r :=
  readReg_writeReg_other (s.pc + 2) h

/-- Every slot of a zeroed register file reads zero. -/
theorem replicate_zero_read (n k : Nat) : ((Vector.replicate n (0#16 : Word))[k]?).getD 0#16 = 0#16 := by
  by_cases h : k < n <;> simp [h]

@[simp] theorem hostReset_readReg : s.hostReset.readReg r = 0#16 := replicate_zero_read _ _

@[simp] theorem powerOn_readReg (params : Params) (draw : Nat) : (State.powerOn params draw).readReg r = 0#16 :=
  replicate_zero_read _ _

/-! ### The Data Store: read after write (R38) -/

@[simp] theorem readData_writeData_same : (s.writeData a v).readData a = v := by
  simp [State.readData, Memory.find?_put_same]

theorem readData_writeData_other {s : State} {a b : Word} (h : b ≠ a) :
    (s.writeData a v).readData b = s.readData b := by
  have hn : b.toNat ≠ a.toNat := fun e => h (BitVec.eq_of_toNat_eq e)
  simp [State.readData, Memory.find?_put_other hn]

/-! ### The canonical form of the banks -/

/-- Both banks are in their canonical form. -/
def MemoryWf (s : State) : Prop := s.d.wf = true ∧ s.p.wf = true ∧ s.p.noSentinel = true

theorem reset_memoryWf : State.reset.MemoryWf := ⟨rfl, rfl, rfl⟩

theorem word_lt_bankWords : a.toNat < Config.bankWords := a.isLt

theorem writeReg_memoryWf {s : State} (h : s.MemoryWf) : (s.writeReg r v).MemoryWf := h

theorem writeData_memoryWf {s : State} (h : s.MemoryWf) : (s.writeData a v).MemoryWf :=
  ⟨Memory.wf_put h.1 (word_lt_bankWords a), h.2⟩

theorem emit_memoryWf {s : State} (h : s.MemoryWf) : (s.emit v).MemoryWf := h

theorem halt_memoryWf {s : State} (h : s.MemoryWf) : (s.halt c).MemoryWf := h

theorem beginCycle_memoryWf {s : State} (h : s.MemoryWf) : s.beginCycle.MemoryWf := h

theorem hostReset_memoryWf {s : State} (h : s.MemoryWf) : s.hostReset.MemoryWf := by
  refine ⟨?_, h.2⟩
  cases hp : s.params.resetData <;> simp [State.hostReset, hp, h.1]

theorem placeAtPc_memoryWf {s : State} (h : s.MemoryWf) : (s.placeAtPc a b).MemoryWf :=
  ⟨h.1, Memory.wf_putProgram (Memory.wf_putProgram h.2.1 (word_lt_bankWords _)) (word_lt_bankWords _),
    Memory.noSentinel_putProgram (Memory.noSentinel_putProgram h.2.2)⟩

end Sys2Proof.Machine.State
end

