-- ==== Sys2Proof/Laws/Operands.lean ====
section
/-!
SUPPORT. Everything the shared operand checks can do (R69, R70, R95), said once: an instruction with register operands halts
with `InvalidRegister`, or halts with `ProtectedRegisterWrite`, or completes.
-/

namespace Sys2Proof.Machine.State

variable {s done t : State} {used : List Sel} {dest : Option Sel}

theorem validSels_iff : s.validSels used = true ↔ ∀ r ∈ used, r.toNat < s.nreg := by
  simp [State.validSels, State.validSel]

theorem protectedDest_iff : s.protectedDest dest = true ↔
    s.params.slotPolicy = .fault ∧ (dest = some 0 ∨ dest = some 1) := by
  cases dest <;> cases h : s.params.slotPolicy <;> simp [State.protectedDest, h]

theorem complete_invalid (h : ¬ ∀ r ∈ used, r.toNat < s.nreg) :
    s.complete used dest done = .next (s.halt .invalidRegister) := by
  rw [← validSels_iff] at h
  simp [State.complete, State.operandFault, h]

theorem complete_protected (hv : ∀ r ∈ used, r.toNat < s.nreg) (hp : s.protectedDest dest = true) :
    s.complete used dest done = .next (s.halt .protectedRegisterWrite) := by
  rw [← validSels_iff] at hv
  simp [State.complete, State.operandFault, hv, hp]

theorem complete_done (hv : ∀ r ∈ used, r.toNat < s.nreg) (hp : s.protectedDest dest = false) :
    s.complete used dest done = .next done := by
  rw [← validSels_iff] at hv
  simp [State.complete, State.operandFault, hv, hp]

/-- The only ways `complete` answers. -/
theorem complete_cases (s done : State) (used : List Sel) (dest : Option Sel) :
    ((¬ ∀ r ∈ used, r.toNat < s.nreg) ∧ s.complete used dest done = .next (s.halt .invalidRegister)) ∨
    ((∀ r ∈ used, r.toNat < s.nreg) ∧ s.protectedDest dest = true ∧
      s.complete used dest done = .next (s.halt .protectedRegisterWrite)) ∨
    ((∀ r ∈ used, r.toNat < s.nreg) ∧ s.protectedDest dest = false ∧ s.complete used dest done = .next done) := by
  by_cases hv : ∀ r ∈ used, r.toNat < s.nreg
  · cases hp : s.protectedDest dest
    · exact .inr (.inr ⟨hv, rfl, complete_done hv hp⟩)
    · exact .inr (.inl ⟨hv, rfl, complete_protected hv hp⟩)
  · exact .inl ⟨hv, complete_invalid hv⟩

/-- An instruction that passes through the operand checks leaves the halted state of one of the two faults, or its own effect. -/
theorem complete_inv (h : s.complete used dest done = .next t) :
    (∃ c, (c = .invalidRegister ∨ c = .protectedRegisterWrite) ∧ t = s.halt c) ∨
    (s.protectedDest dest = false ∧ t = done) := by
  rcases complete_cases s done used dest with ⟨_, e⟩ | ⟨_, _, e⟩ | ⟨_, hp, e⟩ <;> rw [e] at h <;> cases h
  · exact .inl ⟨_, .inl rfl, rfl⟩
  · exact .inl ⟨_, .inr rfl, rfl⟩
  · exact .inr ⟨hp, rfl⟩

end Sys2Proof.Machine.State
end

