-- ==== Sys2Proof/Laws/Step.lean ====
section
/-!
SUPPORT. What one step can do, and what the placed instruction of `State.withFetchWord` fetches as.
-/

namespace Sys2Proof.Machine

variable {s t : State}

/-- The only ways a step answers a next state. -/
theorem step_inv (h : step s = .next t) :
    (s.halted = true ∧ t = s) ∨
    (s.halted = false ∧ s.loaded = true ∧ exec (decode s.fetchWord1 s.fetchWord2) s.beginCycle = .next t) := by
  unfold step at h
  split at h
  · rename_i hh
    cases h
    exact .inl ⟨hh, rfl⟩
  · split at h
    · rename_i hh hl
      exact .inr ⟨by simpa using hh, hl, h⟩
    · cases h

/-- A bank in canonical form fetches the two words just placed at the PC. -/
theorem fetch_placeAtPc (h : s.MemoryWf) (w1 w2 : Word) :
    (s.placeAtPc w1 w2).fetchWord1 = w1 ∧ (s.placeAtPc w1 w2).fetchWord2 = w2 := by
  have hne : s.pc.toNat ≠ (s.pc + 1).toNat := by bv_omega
  have hwf := Memory.wf_putProgram (v := w1) h.2.1 (State.word_lt_bankWords s.pc)
  constructor
  · show (((s.p.putProgram s.pc.toNat w1).putProgram (s.pc + 1).toNat w2).find? s.pc.toNat).getD Config.sentinel = w1
    rw [Memory.find?_putProgram_other hne]
    exact Memory.find?_putProgram_same h.2.1
  · exact Memory.find?_putProgram_same hwf

/-- `step` on a placed instruction runs exactly it. -/
theorem step_withFetchWord (h : s.MemoryWf) (nbits w : Nat) :
    step (s.withFetchWord nbits w) =
      exec (decode (tableWord1 nbits w) (tableWord2 nbits w)) (s.withFetchWord nbits w).beginCycle := by
  have hf := fetch_placeAtPc h (tableWord1 nbits w) (tableWord2 nbits w)
  simp only [step, State.withFetchWord, State.placeAtPc_halted, State.placeAtPc_loaded, Bool.false_eq_true, if_false,
    if_true, cycle, hf.1, hf.2]

end Sys2Proof.Machine
end

