-- ==== Sys2Proof/Laws/Exec.lean ====
section
/-!
SUPPORT. Everything one instruction can do, said once (`exec_cases`), and the frames of the shared operations in the terms of
Safety.lean. Statements over all instructions are case splits over `exec_cases`; none of them unfolds `exec` again.
-/

namespace Sys2Proof.Machine

variable {s t : State}

/-- A core that is ready runs the decoded instruction (R65). -/
theorem step_of_ready (h : Ready s) :
    step s = exec (decode (s.readProgram s.pc) (s.readProgram (s.pc + 1))) s.beginCycle := by
  simp [step, h.1, h.2, cycle, State.fetchWord1, State.fetchWord2]

/-- The halt operation is the halt of the statements (R93). -/
theorem halt_haltsWith (s : State) (c : HaltCause) : HaltsWith c s (.next (s.halt c)) :=
  ⟨_, rfl, rfl, rfl, fun _ _ => rfl, fun _ => rfl, fun _ => rfl, rfl, rfl, rfl, rfl⟩

/-- A register write changes that register alone. -/
theorem writeReg_onlyRegsChange (s : State) (r : Sel) (v : Word) : OnlyRegsChange [r] s (s.writeReg r v) :=
  ⟨⟨rfl, fun _ => rfl, rfl, rfl, rfl, rfl⟩, fun _ hq => State.readReg_writeReg_other v (by simpa using hq), fun _ => rfl, rfl⟩

/-- The protected destination check, in the terms of the statements (R70). -/
theorem protectedDest_eq_false_iff (d : Sel) : s.protectedDest (some d) = false ↔ DestinationAllowed s d := by
  rw [← Bool.not_eq_true, State.protectedDest_iff]
  cases h : s.params.slotPolicy <;> simp [DestinationAllowed, h]

/-- The only ways an instruction answers a next state: it halts; it writes its destination register; AND and OR, then CMP, write
FLAGS; OUT emits; MOV stores; J jumps or does not. -/
theorem exec_cases {i : Instr} (h : exec i s = .next t) :
    (∃ c, c ≠ .none ∧ t = s.halt c) ∨
    (∃ d v, i.destination = some d ∧ s.protectedDest (some d) = false ∧ t = s.writeReg d v) ∨
    (∃ a b r, (i = .and a b ∨ i = .or a b) ∧ t = s.setFlags (truthFlags s.flags r)) ∨
    (∃ a b v w, i = .cmp a b ∧ t = s.setFlags (compareFlags s.flags v w)) ∨
    (∃ a, i = .out a ∧ t = s.emit (s.readReg a)) ∨
    (∃ a addr, i = .mov a addr ∧ t = s.writeData addr (s.readReg a)) ∨
    (∃ mode bit target, i = .j mode bit target ∧
      t = if jumpTaken mode (getBit s.flags bit.toNat) then s.setPc target else s) := by
  cases i <;> simp only [exec, execReservedB, execReservedC, execReservedD, execHlt, execJ] at h
  all_goals first
    | (cases h; exact .inl ⟨_, by decide, rfl⟩)
    | (cases h; exact .inr (.inr (.inr (.inr (.inr (.inr ⟨_, _, _, rfl, rfl⟩))))))
    | (rcases State.complete_inv h with ⟨c, hc, rfl⟩ | ⟨hp, rfl⟩
       · exact .inl ⟨c, by rcases hc with rfl | rfl <;> decide, rfl⟩
       · first
         | exact .inr (.inl ⟨_, _, rfl, hp, rfl⟩)
         | exact .inr (.inr (.inl ⟨_, _, _, .inl rfl, rfl⟩))
         | exact .inr (.inr (.inl ⟨_, _, _, .inr rfl, rfl⟩))
         | exact .inr (.inr (.inr (.inl ⟨_, _, _, _, rfl, rfl⟩)))
         | exact .inr (.inr (.inr (.inr (.inl ⟨_, rfl, rfl⟩))))
         | exact .inr (.inr (.inr (.inr (.inr (.inl ⟨_, _, rfl, rfl⟩))))))

end Sys2Proof.Machine
end

