-- ==== Sys2Proof/Laws/PerInstr.lean ====
section
/-!
SUPPORT. The per-instruction family `OpcodeField`: the top four bits of word 1 are the instruction's opcode (R52, R57).
-/

namespace Sys2Proof.Laws.OpcodeField

/-- Word 1 of the encoded instruction carries its opcode in bits 15:12. -/
def Statement (i : Instr) : Prop := (splitWord (encode i).1).op = i.opcode

variable (a b c m f : Nibble) (w : Word)

theorem add : Statement (.add a b c) := by simp [Statement, encode, encodeWord1, splitWord_joinWord]
theorem sub : Statement (.sub a b c) := by simp [Statement, encode, encodeWord1, splitWord_joinWord]
theorem not : Statement (.not a) := by simp [Statement, encode, encodeWord1, splitWord_joinWord]
theorem and : Statement (.and a b) := by simp [Statement, encode, encodeWord1, splitWord_joinWord]
theorem or : Statement (.or a b) := by simp [Statement, encode, encodeWord1, splitWord_joinWord]
theorem cmp : Statement (.cmp a b) := by simp [Statement, encode, encodeWord1, splitWord_joinWord]
theorem cpy : Statement (.cpy a b) := by simp [Statement, encode, encodeWord1, splitWord_joinWord]
theorem out : Statement (.out a) := by simp [Statement, encode, encodeWord1, splitWord_joinWord]
theorem mov : Statement (.mov a w) := by simp [Statement, encode, encodeWord1, splitWord_joinWord]
theorem ld : Statement (.ld a w) := by simp [Statement, encode, encodeWord1, splitWord_joinWord]
theorem ldv : Statement (.ldv a w) := by simp [Statement, encode, encodeWord1, splitWord_joinWord]
theorem reservedB : Statement .reservedB := by simp [Statement, encode, encodeWord1, splitWord_joinWord]
theorem reservedC : Statement .reservedC := by simp [Statement, encode, encodeWord1, splitWord_joinWord]
theorem reservedD : Statement .reservedD := by simp [Statement, encode, encodeWord1, splitWord_joinWord]
theorem j : Statement (.j m f w) := by simp [Statement, encode, encodeWord1, splitWord_joinWord]
theorem hlt : Statement .hlt := by simp [Statement, encode, encodeWord1, splitWord_joinWord]

end Sys2Proof.Laws.OpcodeField
end

