-- ==== Sys2Proof/Tests/Slice0.lean ====
section
/-!
SUPPORT. The model's own tests. Expected results are the spec's worked vectors (spec/95, named at each test) or the encodings and
rules named there, never the model's own answers. The last part holds, for each statement with hypotheses, states and operands
that meet them.
-/

namespace Sys2Proof.Tests

open Sys2Proof Sys2Proof.Machine

/-! ### Helpers -/

/-- A core with the given configuration and registers, nothing loaded. -/
def coreWith (n : NReg) (policy : SlotPolicy) (regs : List (Sel × Word)) : State :=
  regs.foldl (fun s rv => s.writeReg rv.1 rv.2) (State.powerOn ⟨n, policy, .keep⟩ 0)

def five : NReg := ⟨5, by decide⟩

def sixteen : NReg := ⟨16, by decide⟩

/-- The convention of spec/95: NREG = 16 and policy `fault`, with the given registers. -/
def std (regs : List (Sel × Word)) : State := coreWith sixteen .fault regs

/-- One step with the two words placed where the PC points. -/
def stepOn (w1 w2 : Word) (s : State) : Host.Outcome State Fault Refusal := step (s.placeAtPc w1 w2)

/-- A view of the next state. -/
def seen {α : Type} (o : Host.Outcome State Fault Refusal) (view : State → α) : Option α :=
  match o with
  | .next t    => some (view t)
  | .fault _   => none
  | .refused _ => none

/-- The named slots and the halt cause. -/
def slots (rs : List Sel) (t : State) : List Word × HaltCause := (rs.map t.readReg, t.haltCause)

/-! ### Decoding: each word is written from the pattern strings of R54 with the opcodes of R57 -/

theorem test_decode_add : decode 0b0000_0010_0011_0100#16 0xFFFF#16 = .add 2 3 4 := by decide
theorem test_decode_sub : decode 0b0001_0011_0100_0101#16 0#16 = .sub 3 4 5 := by decide
theorem test_decode_not : decode 0b0010_1111_0100_0101#16 0#16 = .not 15 := by decide
theorem test_decode_and : decode 0b0011_0010_0011_1111#16 0#16 = .and 2 3 := by decide
theorem test_decode_or : decode 0b0100_0001_0010_0000#16 0#16 = .or 1 2 := by decide
theorem test_decode_cmp : decode 0b0101_0100_0011_0000#16 0#16 = .cmp 4 3 := by decide
theorem test_decode_cpy : decode 0b0110_0011_0010_0000#16 0#16 = .cpy 3 2 := by decide
theorem test_decode_out : decode 0b0111_0100_1111_1111#16 0#16 = .out 4 := by decide
theorem test_decode_mov : decode 0b1000_0011_0000_0000#16 0x0100#16 = .mov 3 0x0100 := by decide
theorem test_decode_ld : decode 0b1001_0101_0000_0000#16 0x0100#16 = .ld 5 0x0100 := by decide
theorem test_decode_ldv : decode 0b1010_0101_0000_0000#16 0xABCD#16 = .ldv 5 0xABCD := by decide
theorem test_decode_reservedB : decode 0b1011_0001_0010_0011#16 0#16 = .reservedB := by decide
theorem test_decode_reservedC : decode 0b1100_1111_1111_1111#16 0#16 = .reservedC := by decide
theorem test_decode_reservedD : decode 0b1101_0001_0010_0011#16 0#16 = .reservedD := by decide
theorem test_decode_j : decode 0b1110_0001_0010_0000#16 0x0041#16 = .j 1 2 0x0041 := by decide
theorem test_decode_hlt : decode 0b1111_0001_0010_0011#16 0xFFFF#16 = .hlt := by decide

/-- The assembler's words of R62 and spec/95, P2. -/
theorem test_encode_j : encode (.j 0 1 0x0008) = (0xE010#16, 0x0008#16) := by decide

/-- The opcode table counts word 2 from bit 16. -/
theorem test_decodeTableWord : decodeTableWord 32 0x0006_E100 = some (.j 1 0 0x0006) := by decide

/-- A row given by its 16 bits has a word 2 of zero. -/
theorem test_decodeTableWord_short : decodeTableWord 16 0xA200 = some (.ldv 2 0) := by decide

/-! ### WellFormed: for each check of R69 a term it refuses (NREG = 5, selector 5) -/

theorem test_illFormed_add :
    [Instr.add 5 3 4, .add 2 5 4, .add 2 3 5].all (fun i => i.wellFormed 5 == false) = true := by decide

theorem test_illFormed_sub :
    [Instr.sub 5 3 4, .sub 2 5 4, .sub 2 3 5].all (fun i => i.wellFormed 5 == false) = true := by decide

theorem test_illFormed_flag_writers :
    [Instr.and 5 2, .and 2 5, .or 5 2, .or 2 5, .cmp 5 2, .cmp 2 5].all (fun i => i.wellFormed 5 == false) = true := by
  decide

theorem test_illFormed_movers :
    [Instr.not 5, .cpy 5 2, .cpy 2 5, .out 5, .mov 5 0, .ld 5 0, .ldv 5 0].all (fun i => i.wellFormed 5 == false) = true := by
  decide

/-- J, HLT and the reserved opcodes have no selector to refuse (R69), and with NREG = 16 nothing is refused (R17). -/
theorem test_wellFormed :
    [Instr.j 15 15 0, .hlt, .reservedB, .reservedC, .reservedD, .add 4 4 4].all (fun i => i.wellFormed 5) = true ∧
    (Instr.add 15 15 15).wellFormed 16 = true := by decide

/-! ### ALU and comparison (spec/95, V1 to V5) -/

/-- V1.2. -/
theorem test_add_wraps :
    seen (stepOn 0x0234 0 (std [(2, 0xFFFF), (3, 1)])) (slots [0, 1, 4]) = some ([2, 0, 0], .none) := by decide

/-- V1.6: slot 0 reads as `pc0 + 2`. -/
theorem test_add_reads_pc :
    seen (stepOn 0x0034 0 (std [(0, 0x10), (3, 5)])) (slots [0, 4]) = some ([0x12, 0x17], .none) := by decide

/-- V2.2: the order of the operands. -/
theorem test_sub_wraps :
    seen (stepOn 0x1234 0 (std [(2, 3), (3, 5)])) (slots [4]) = some ([0xFFFE], .none) := by decide

/-- V2.7: the protected FLAGS slot. -/
theorem test_sub_protected :
    seen (stepOn 0x1231 0 (std [(2, 9)])) (slots [0, 1]) = some ([2, 0], .protectedRegisterWrite) := by decide

/-- V3.4: an ignored field is not checked. -/
theorem test_not :
    seen (stepOn 0x2345 0 (coreWith five .fault [(3, 0x00FF)])) (slots [3]) = some ([0xFF00], .none) := by decide

/-- V3.6: under `write` all 16 bits of FLAGS are complemented. -/
theorem test_not_flags :
    seen (stepOn 0x2100 0 (coreWith sixteen .write [(1, 4)])) (slots [1]) = some ([0xFFFB], .none) := by decide

/-- V4.1: GT is cleared. -/
theorem test_and_true :
    seen (stepOn 0x3230 0 (std [(1, 1), (2, 0x8000), (3, 0xFFFF)])) (slots [1, 2, 3]) =
      some ([2, 0x8000, 0xFFFF], .none) := by decide

/-- V4.5: the reserved bits are kept. -/
theorem test_and_keeps_reserved :
    seen (stepOn 0x3230 0 (coreWith sixteen .write [(1, 0xFFFF), (2, 1), (3, 1)])) (slots [1]) =
      some ([0xFFFA], .none) := by decide

/-- V4.6. -/
theorem test_or_false : seen (stepOn 0x4230 0 (std [(1, 2)])) (slots [1]) = some ([0], .none) := by decide

/-- V4.8: FLAGS is read before it is written. -/
theorem test_or_reads_flags : seen (stepOn 0x4110 0 (std [(1, 1)])) (slots [1]) = some ([2], .none) := by decide

/-- V5.4: the comparison is unsigned. -/
theorem test_cmp_unsigned : seen (stepOn 0x5430 0 (std [(4, 0xFFFF)])) (slots [1]) = some ([1], .none) := by decide

/-- V5.8. -/
theorem test_cmp_equal_keeps_reserved :
    seen (stepOn 0x5110 0 (coreWith sixteen .write [(1, 0xFFFF)])) (slots [1]) = some ([0xFFFA], .none) := by decide

/-! ### Data movement and output (spec/95, V6 and V7) -/

/-- V6.1: from the first operand to the second. -/
theorem test_cpy : seen (stepOn 0x6320 0 (std [(3, 9)])) (slots [2, 3]) = some ([9, 9], .none) := by decide

/-- V6.5: a computed jump under `write`. -/
theorem test_cpy_to_pc :
    seen (stepOn 0x6200 0 (coreWith sixteen .write [(2, 0x40)])) (slots [0]) = some ([0x40], .none) := by decide

/-- V6.8. -/
theorem test_out_pc : seen (stepOn 0x7000 0 (std [(0, 8)])) (fun t => t.out) = some [10] := by decide

/-- V6.11. -/
theorem test_out_invalid :
    seen (stepOn 0x7500 0 (coreWith five .fault [])) (fun t => (t.out, t.haltCause)) = some ([], .invalidRegister) := by
  decide

/-- V7.2: the last address; MOV leaves the Program Store alone (R37). -/
theorem test_mov_last :
    seen (stepOn 0x8300 0xFFFF (std [(3, 7)])) (fun t => (t.readData 0xFFFF, t.readProgram 0xFFFF)) =
      some (7, 0xFFFF) := by decide

/-- V7.4. -/
theorem test_ld :
    seen (stepOn 0x9500 0x0100 ((std []).writeData 0x0100 0x1234)) (slots [5]) = some ([0x1234], .none) := by decide

/-- V7.6: an unwritten cell reads as its free `DATA_INIT` Word. -/
theorem test_ld_unwritten :
    seen (stepOn 0x9500 0x0200 (std [])) (fun t => t.readReg 5) = some (Config.dataInit 0 0x0200) := rfl

/-- V7.7. -/
theorem test_ldv : seen (stepOn 0xA500 0xABCD (std [])) (slots [5]) = some ([0xABCD], .none) := by decide

/-- V7.9. -/
theorem test_ldv_protected :
    seen (stepOn 0xA000 0x0040 (std [])) (slots [0]) = some ([2], .protectedRegisterWrite) := by decide

/-! ### Control (spec/95, V8 to V10) -/

/-- V8.4 and V8.3: mode 1. -/
theorem test_j_if_set :
    seen (stepOn 0xE100 0x41 (std [(0, 0x10), (1, 1)])) (slots [0, 1]) = some ([0x41, 1], .none) ∧
    seen (stepOn 0xE100 0x41 (std [(0, 0x10)])) (slots [0]) = some ([0x12], .none) := by decide

/-- V8.7, V8.10 and V8.12: mode 0 on LT and on a reserved bit, and mode 15. -/
theorem test_j_other_modes :
    seen (stepOn 0xE020 0x41 (std [(0, 0x10), (1, 4)])) (slots [0]) = some ([0x12], .none) ∧
    seen (stepOn 0xE0F0 0x41 (std [(0, 0x10)])) (slots [0]) = some ([0x41], .none) ∧
    seen (stepOn 0xEFF0 0x41 (coreWith five .fault [(0, 0x10)])) (slots [0]) = some ([0x41], .none) := by decide

/-- V9.3. -/
theorem test_hlt : seen (stepOn 0xF123 0 (coreWith five .fault [])) (slots [0]) = some ([2], .requested) := by decide

/-- V10.5: the opcode class before the selectors. -/
theorem test_reservedB :
    seen (stepOn 0xBFFF 0 (coreWith five .fault [])) (slots [0]) = some ([2], .undefinedOpcode) := by decide

/-- V9.5. -/
theorem test_reservedC : seen (stepOn 0xC000 0 (std [])) (slots [0]) = some ([2], .undefinedOpcode) := by decide

/-- V9.6. -/
theorem test_reservedD : seen (stepOn 0xDFFF 0 (std [])) (slots [0]) = some ([2], .undefinedOpcode) := by decide

/-- V10.3: `InvalidRegister` before `ProtectedRegisterWrite`. -/
theorem test_priority :
    seen (stepOn 0x0290 0 (coreWith five .fault [])) (slots [0]) = some ([2], .invalidRegister) := by decide

/-- V11.1: word 2 of an instruction at 0xFFFF is at address 0. -/
theorem test_fetch_wraps :
    seen (stepOn 0xA200 0x1234 (std [(0, 0xFFFF)])) (slots [0, 2]) = some ([1, 0x1234], .none) := by decide

/-! ### Reset, load and the host (spec/95, V12; R111) -/

/-- V12.2: the words, then the sentinel. -/
theorem test_load :
    seen (hostLoad [0xA200, 7] (std [])) (fun t => [0, 1, 2, 0xFFFF].map t.readProgram) =
      some [0xA200, 7, 0xFFFF, 0xFFFF] := by decide

/-- V12.4: a load after a step is refused. -/
theorem test_load_during_run :
    (match hostLoad [] (afterActions [.load [], .step] (std [])) with
      | .refused r => decide (r = .loadDuringRun)
      | .next _ | .fault _ => false) = true := by decide

/-- V12.1: registers, halt state and output cleared, D kept. -/
theorem test_reset :
    seen (hostAct .reset (((std [(0, 4), (2, 9)]).writeData 5 6).emit 1))
      (fun t => (slots [0, 2] t, t.out, t.readData 5)) = some (([0, 0], .none), [], 6) := by decide

/-- R111: a step before any load is refused. -/
theorem test_step_before_load :
    (match step State.reset with | .refused r => decide (r = .noProgramLoaded) | .next _ | .fault _ => false) = true := by
  decide

/-- V12.3: the empty program runs one cycle and halts; the codes of R92. -/
theorem test_empty_program :
    seen (runFor 3 (afterActions [.load []] (std []))) (fun t => (t.cycles, t.pc, t.observe.causeCode)) =
      some (1, 2, 1) := by decide

/-- V6.7: the host's line for 0xFFFF (R83). -/
theorem test_out_line : ((std []).emit 0xFFFF).outLines = ["65535"] := by decide

/-! ### Witnesses: states and operands that meet the hypotheses of the statements, clause by clause -/

def small : State := coreWith five .fault [(2, 7), (3, 7)]

def smallWrite : State := coreWith five .write [(2, 7), (3, 7)]

/-- A loaded core about to run the given words. -/
def about (w1 w2 : Word) : State := small.placeAtPc w1 w2

/-- Zero literal: opcode 2 ignores f3, f4 and word 2. -/
theorem witness_IgnoredBitsChangeNothing :
    opcodeOf 0x2345#16 = opcodeOf 0x2300#16 ∧
    0x2345#16 &&& usedBitsOfWord1 (opcodeOf 0x2300#16) = 0x2300#16 &&& usedBitsOfWord1 (opcodeOf 0x2300#16) ∧
    0xFFFF#16 &&& usedBitsOfWord2 (opcodeOf 0x2300#16) = 0x0000#16 &&& usedBitsOfWord2 (opcodeOf 0x2300#16) := by decide

theorem witness_StepRunsDecodedInstruction :
    Ready (about 0xA200 5) ∧
    decode ((about 0xA200 5).readProgram (about 0xA200 5).pc) ((about 0xA200 5).readProgram ((about 0xA200 5).pc + 1)) =
      .ldv 2 5 := by decide

theorem witness_FetchAndPcWrapAtTheTop :
    (Ready ((std [(0, 0xFFFE)]).placeAtPc 0xA200 5) ∧ ((std [(0, 0xFFFE)]).placeAtPc 0xA200 5).pc = 0xFFFE#16) ∧
    (Ready ((std [(0, 0xFFFF)]).placeAtPc 0xA200 5) ∧ ((std [(0, 0xFFFF)]).placeAtPc 0xA200 5).pc = 0xFFFF#16) := by decide

theorem witness_ZeroWordAddsThePcToItself :
    (Ready (about 0 0) ∧ (about 0 0).readProgram (about 0 0).pc = 0x0000#16 ∧
      (about 0 0).params.slotPolicy = .fault) ∧
    (Ready (smallWrite.placeAtPc 0 0) ∧ (smallWrite.placeAtPc 0 0).readProgram (smallWrite.placeAtPc 0 0).pc = 0x0000#16 ∧
      (smallWrite.placeAtPc 0 0).params.slotPolicy = .write) := by decide

theorem witness_HaltedCoreIgnoresSteps : (small.halt .requested).halted = true := by decide

theorem witness_StepBeforeLoadIsRefused : State.reset.halted = false ∧ State.reset.loaded = false := by decide

theorem witness_EveryCycleAnswersAndIsCounted : Ready (about 0x0235 0) := by decide

/-- AddStoresTheSumModulo65536 and SubStoresTheDifferenceModulo65536: an invalid selector in each place (at NREG = 5 and at 15), both
protected slots, the last slot, and a protected slot under `write`. -/
theorem witness_three_selectors :
    (¬ SelectorsExist small [5, 3, 4] ∧ ¬ SelectorsExist small [2, 15, 4] ∧ ¬ SelectorsExist small [2, 3, 5]) ∧
    (SelectorsExist small [2, 3, 0] ∧ ¬ DestinationAllowed small 0) ∧
    (SelectorsExist small [2, 3, 1] ∧ ¬ DestinationAllowed small 1) ∧
    (SelectorsExist small [0, 1, 4] ∧ DestinationAllowed small 4) ∧
    (SelectorsExist small [2, 2, 2] ∧ DestinationAllowed small 2) ∧
    (SelectorsExist smallWrite [2, 3, 0] ∧ DestinationAllowed smallWrite 0) := by decide

/-- AndSetsTheTruthFlag, OrSetsTheTruthFlag, CmpSetsExactlyOneFlag, CpyCopiesFirstToSecond and CompareThenJumpTestsTheNewFlags. -/
theorem witness_two_selectors :
    (¬ SelectorsExist small [5, 3] ∧ ¬ SelectorsExist small [2, 5]) ∧
    (SelectorsExist small [2, 1] ∧ ¬ DestinationAllowed small 1) ∧
    (SelectorsExist small [4, 0] ∧ ¬ DestinationAllowed small 0) ∧
    (SelectorsExist small [0, 4] ∧ DestinationAllowed small 4) ∧
    (SelectorsExist smallWrite [4, 0] ∧ DestinationAllowed smallWrite 0) := by decide

/-- NotComplementsInPlace, OutAppendsTheRegister, MovStoresToTheDataStore, LdLoadsFromTheDataStore and LdvLoadsTheLiteral. -/
theorem witness_one_selector :
    ¬ SelectorsExist small [5] ∧
    (SelectorsExist small [0] ∧ ¬ DestinationAllowed small 0) ∧ (SelectorsExist small [1] ∧ ¬ DestinationAllowed small 1) ∧
    (SelectorsExist small [4] ∧ DestinationAllowed small 4) ∧
    (SelectorsExist smallWrite [1] ∧ DestinationAllowed smallWrite 1) := by decide

/-- The J clause and the other clause, with a step that answers. -/
theorem witness_PcAfterEachCycle :
    (∃ t, Ready (about 0xE100 6) ∧ step (about 0xE100 6) = .next t ∧
      decode ((about 0xE100 6).readProgram (about 0xE100 6).pc) ((about 0xE100 6).readProgram ((about 0xE100 6).pc + 1)) =
        .j 1 0 6) ∧
    (∃ t, Ready (about 0x0230 0) ∧ step (about 0x0230 0) = .next t ∧ (about 0x0230 0).params.slotPolicy = .fault ∧
      decode ((about 0x0230 0).readProgram (about 0x0230 0).pc) ((about 0x0230 0).readProgram ((about 0x0230 0).pc + 1)) =
        .add 2 3 0) :=
  ⟨⟨_, by decide, rfl, by decide⟩, ⟨_, by decide, rfl, by decide, by decide⟩⟩

/-- Slot 0 changed by a taken J, slot 1 by CMP, and both by LDV under `write`. -/
theorem witness_OnlyPermittedWritersOfPcAndFlags :
    (∃ t, exec (.j 2 0 9) small = .next t ∧ t.readReg 0 ≠ small.readReg 0) ∧
    (∃ t, exec (.cmp 2 3) small = .next t ∧ t.readReg 1 ≠ small.readReg 1) ∧
    (∃ t, exec (.ldv 0 9) smallWrite = .next t ∧ t.readReg 0 ≠ smallWrite.readReg 0) ∧
    (∃ t, exec (.ldv 1 9) smallWrite = .next t ∧ t.readReg 1 ≠ smallWrite.readReg 1) :=
  ⟨⟨_, rfl, by decide⟩, ⟨_, rfl, by decide⟩, ⟨_, rfl, by decide⟩, ⟨_, rfl, by decide⟩⟩

theorem witness_OnlyOutExtendsTheOutput : ∃ t, exec (.out 2) small = .next t ∧ t.out = [7] := ⟨_, rfl, by decide⟩

theorem witness_ProgramStoreIsConstantDuringARun : ∃ t, runFor 2 (about 0xA200 5) = .next t ∧ t.cycles = 2 :=
  ⟨_, rfl, by decide⟩

theorem witness_OnlyMovWritesTheDataStore :
    ∃ t, exec (.mov 2 0xFFFF) small = .next t ∧ t.readData 0xFFFF = 7 := ⟨_, rfl, by decide⟩

theorem witness_OnlyLdReadsTheDataStore :
    (∀ a addr, Instr.mov 2 5 ≠ .ld a addr) ∧ ∃ t, exec (.mov 2 5) small = .next t :=
  ⟨fun _ _ => by simp, _, rfl⟩

theorem witness_HaltsArePreciseAndAtomic :
    ∃ t, Ready (about 0xF000 0) ∧ step (about 0xF000 0) = .next t ∧ t.halted = true := ⟨_, by decide, rfl, by decide⟩

/-- One instruction for each clause, in the order of the clauses. -/
theorem witness_HaltCauseFollowsPriority :
    (Instr.reservedB = .reservedB ∨ Instr.reservedB = .reservedC ∨ Instr.reservedB = .reservedD) ∧
    (Instr.add 2 3 5).wellFormed small.nreg = false ∧
    ((Instr.add 2 3 1).wellFormed small.nreg = true ∧ ¬ DestinationAllowed small 1) ∧
    ((Instr.add 2 3 4).wellFormed small.nreg = true ∧ DestinationAllowed small 4) ∧
    ((Instr.mov 4 5).wellFormed small.nreg = true ∧ (Instr.mov 4 5).destination = none) := by decide

theorem witness_MovThenLdReturnsTheStoredWord :
    SelectorsExist small [0, 4] ∧ DestinationAllowed small 4 ∧ (0xFFFF : Word) ≠ 0x0000 := by decide

/-- A one-cycle run whose cycle is no MOV. -/
theorem witness_DataWordHoldsUntilItsNextMov :
    (∀ (n : Nat) (u : State), n < 1 → runFor n (about 0xA200 5) = .next u →
      ∀ r : Sel, decode (u.readProgram u.pc) (u.readProgram (u.pc + 1)) ≠ .mov r 0x0100) ∧
    ∃ t, runFor 1 (about 0xA200 5) = .next t := by
  refine ⟨fun n u hn hu r => ?_, _, rfl⟩
  have hz : n = 0 := by omega
  subst hz
  cases hu
  rw [show decode ((about 0xA200 5).readProgram (about 0xA200 5).pc)
    ((about 0xA200 5).readProgram ((about 0xA200 5).pc + 1)) = .ldv 2 5 by decide]
  simp

/-- The same program from power-on, and an LD into the last slot. -/
theorem witness_LdOfAnUnwrittenCellGivesItsInitialWord :
    ∃ s t, hostLoad [0xA200, 5] (State.powerOn ⟨five, .fault, .keep⟩ 3) = .next s ∧
      (∀ (n : Nat) (u : State), n < 1 → runFor n s = .next u →
        ∀ q : Sel, decode (u.readProgram u.pc) (u.readProgram (u.pc + 1)) ≠ .mov q 0x0100) ∧
      runFor 1 s = .next t ∧ SelectorsExist t [4] ∧ DestinationAllowed t 4 := by
  refine ⟨_, _, rfl, fun n u hn hu q => ?_, rfl, by decide, by decide⟩
  have hz : n = 0 := by omega
  subst hz
  cases hu
  exact fun h => Instr.noConfusion h

/-- Both values of `RESET_DATA`. -/
theorem witness_ResetReinitialisesAllButTheProgram :
    small.params.resetData = .keep ∧ (State.powerOn ⟨five, .fault, .redraw⟩ 3).params.resetData = .redraw := by decide

/-- The three clauses: allowed (no word, and exactly 65536 words), too long, and after a cycle. -/
theorem witness_LoadFillsTheProgramStore :
    (small.cycles = 0 ∧ ([] : List Word).length ≤ 65536 ∧ (List.replicate 65536 (0 : Word)).length ≤ 65536) ∧
    (small.cycles = 0 ∧ 65536 < (List.replicate 65537 (0 : Word)).length) ∧ small.beginCycle.cycles ≠ 0 := by
  refine ⟨⟨by decide, by decide, by rw [List.length_replicate]⟩, ⟨by decide, by rw [List.length_replicate]; omega⟩, by decide⟩

/-- The two-word program `LDV r2, 5` and the cycle after it, whose PC is the first address past the program. -/
theorem witness_StrayFetchHaltsRequested :
    ∃ t u, hostLoad [0xA200, 5] small = .next t ∧ runFor 1 t = .next u ∧ u.halted = false ∧
      [(0xA200 : Word), 5].length ≤ u.pc.toNat := ⟨_, _, rfl, rfl, by decide, by decide⟩

/-- The core from reset with an LDV loaded has the invariant, and steps. -/
theorem witness_StepKeepsTheMachineInvariant :
    MachineInv (State.reset.placeAtPc 0xA200 5) ∧ ∃ t, step (State.reset.placeAtPc 0xA200 5) = .next t ∧ t.cycles = 1 := by
  have hz : ∀ r : Sel, (State.reset.placeAtPc 0xA200 5).readReg r = 0#16 := by decide
  exact ⟨⟨by decide, by decide, by decide, fun _ => by decide, fun _ => ⟨hz, rfl, rfl⟩, fun h => by simp at h⟩,
    _, rfl, by decide⟩

theorem witness_HostActionsKeepTheInvariant : MachineInv (State.reset.placeAtPc 0xA200 5) :=
  witness_StepKeepsTheMachineInvariant.1

/-- Two different states that are observably equal: the cell written with its own `DATA_INIT` Word. -/
theorem witness_ObservablyEqualStatesStepAlike :
    ObservablyEqual (about 0xA200 5) ((about 0xA200 5).writeData 9 (Config.dataInit 0 9)) ∧
    (∃ t, step (about 0xA200 5) = .next t ∧ t.cycles = 1) := by
  refine ⟨⟨rfl, fun _ => rfl, fun _ => rfl, fun a => ?_, rfl, rfl, rfl, rfl, rfl⟩, _, rfl, by decide⟩
  by_cases h : a = 9
  · subst h
    rw [State.readData_writeData_same]
    rfl
  · exact State.readData_writeData_other _ h

theorem witness_ReplayAfterResetAndLoad :
    (small.halt .requested).params = small.params ∧ [(0xA200 : Word), 5].length ≤ 65536 ∧
    (∀ a : Word, (small.halt .requested).hostReset.readData a = small.hostReset.readData a) :=
  ⟨rfl, by decide, fun _ => rfl⟩

end Sys2Proof.Tests
end

/-! ## The state (10_state.md): frames, the machine's invariant, and observable equality -/

namespace Sys2Proof.Machine

/-! ### Accessors: read after any write -/

section Accessors

variable {s : State}

/-- A write to a slot that does not exist is dropped (log entry 11). -/
theorem State.writeReg_of_not_lt {r : Sel} (hr : ¬ r.toNat < s.nreg) (v : Word) : s.writeReg r v = s := by
  have hx : s.x.setIfInBounds r.toNat v = s.x := Vector.setIfInBounds_eq_of_size_le (Nat.le_of_not_lt hr)
  rw [State.writeReg, hx]

/-- A register read after any register write, dropped writes to slots that do not exist included (log entry 11). -/
theorem State.readReg_writeReg (s : State) (r q : Sel) (v : Word) :
    (s.writeReg r v).readReg q = if q = r ∧ r.toNat < s.nreg then v else s.readReg q := by
  split
  · rename_i h
    obtain ⟨rfl, hr⟩ := h
    exact State.readReg_writeReg_same v hr
  · rename_i h
    by_cases hq : q = r
    · rw [State.writeReg_of_not_lt fun hr => h ⟨hq, hr⟩]
    · exact State.readReg_writeReg_other v hq

theorem State.readData_writeData (s : State) (a b v : Word) :
    (s.writeData a v).readData b = if b = a then v else s.readData b := by
  split
  · rename_i h
    rw [h, State.readData_writeData_same]
  · exact State.readData_writeData_other v ‹_›

@[simp] theorem State.setFlags_pc (f : Word) : (s.setFlags f).pc = s.pc := State.readReg_writeReg_other f (by decide)

@[simp] theorem State.setPc_flags (v : Word) : (s.setPc v).flags = s.flags := State.readReg_writeReg_other v (by decide)

@[simp] theorem State.beginCycle_flags : s.beginCycle.flags = s.flags := State.beginCycle_readReg (by decide)

end Accessors

/-! ### What an instruction and a step leave unchanged -/

section Frames

variable {s t : State} {i : Instr}

/-- What holds of a state, of its halts and of its single writes holds after every instruction. -/
theorem exec_keeps {P : State → Prop} (h : exec i s = .next t) (same : P s) (halt : ∀ c, c ≠ .none → P (s.halt c))
    (writeReg : ∀ r v, P (s.writeReg r v)) (writeData : ∀ addr v, P (s.writeData addr v)) (emit : ∀ v, P (s.emit v)) :
    P t := by
  rcases exec_cases h with ⟨c, hc, rfl⟩ | ⟨d, v, -, -, rfl⟩ | ⟨a, b, r, -, rfl⟩ | ⟨a, b, v, w, -, rfl⟩ | ⟨a, -, rfl⟩ |
    ⟨a, addr, -, rfl⟩ | ⟨mode, bit, target, -, rfl⟩
  · exact halt c hc
  · exact writeReg d v
  · exact writeReg 1 _
  · exact writeReg 1 _
  · exact emit _
  · exact writeData addr _
  · split
    · exact writeReg 0 target
    · exact same

/-- What every instruction leaves as it was: the configuration, the program, the draw of `DATA_INIT` and the host's bookkeeping. -/
structure BookkeepingKept (s t : State) : Prop where
  params   : t.params = s.params
  p        : t.p = s.p
  dataDraw : t.dataDraw = s.dataDraw
  loaded   : t.loaded = s.loaded
  cycles   : t.cycles = s.cycles

theorem exec_bookkeepingKept (h : exec i s = .next t) : BookkeepingKept s t :=
  exec_keeps h ⟨rfl, rfl, rfl, rfl, rfl⟩ (fun _ _ => ⟨rfl, rfl, rfl, rfl, rfl⟩) (fun _ _ => ⟨rfl, rfl, rfl, rfl, rfl⟩)
    (fun _ _ => ⟨rfl, rfl, rfl, rfl, rfl⟩) (fun _ => ⟨rfl, rfl, rfl, rfl, rfl⟩)

/-- The only writers of a register slot: an instruction whose destination it is, a flag writer for slot 1, a J for slot 0. -/
theorem exec_readReg_cases (h : exec i s = .next t) (r : Sel) :
    t.readReg r = s.readReg r ∨
    (i.destination = some r ∧ DestinationAllowed s r) ∨
    (r = 1 ∧ ∃ a b, i = .cmp a b ∨ i = .and a b ∨ i = .or a b) ∨
    (r = 0 ∧ ∃ mode bit, i = .j mode bit (t.readReg 0)) := by
  rcases exec_cases h with ⟨c, -, rfl⟩ | ⟨d, v, hd, hp, rfl⟩ | ⟨a, b, f, hi, rfl⟩ | ⟨a, b, v, w, hi, rfl⟩ | ⟨a, -, rfl⟩ |
    ⟨a, addr, -, rfl⟩ | ⟨mode, bit, target, hi, rfl⟩
  · exact .inl rfl
  · by_cases hr : r = d
    · subst hr
      exact .inr (.inl ⟨hd, (protectedDest_eq_false_iff r).1 hp⟩)
    · exact .inl (State.readReg_writeReg_other v hr)
  · by_cases hr : r = 1
    · exact .inr (.inr (.inl ⟨hr, a, b, .inr hi⟩))
    · exact .inl (State.readReg_writeReg_other _ hr)
  · by_cases hr : r = 1
    · exact .inr (.inr (.inl ⟨hr, a, b, .inl hi⟩))
    · exact .inl (State.readReg_writeReg_other _ hr)
  · exact .inl rfl
  · exact .inl rfl
  · split
    · by_cases hr : r = 0
      · have hpc : (s.setPc target).readReg 0 = target := State.pc_setPc s target
        exact .inr (.inr (.inr ⟨hr, mode, bit, hpc.symm ▸ hi⟩))
      · exact .inl (State.readReg_writeReg_other _ hr)
    · exact .inl rfl

/-- Slot 0 or 1 may be a destination under the policy `write` alone. -/
theorem slotPolicy_of_destinationAllowed {d : Sel} (h : DestinationAllowed s d) (hd : d = 0 ∨ d = 1) :
    s.params.slotPolicy = .write :=
  h.resolve_right fun ⟨h0, h1⟩ => hd.elim h0 h1

/-- Only OUT extends the output stream (R29). -/
theorem exec_out_cases (h : exec i s = .next t) : t.out = s.out ∨ ∃ a, i = .out a ∧ t.out = s.out ++ [s.readReg a] := by
  rcases exec_cases h with ⟨c, -, rfl⟩ | ⟨d, v, -, -, rfl⟩ | ⟨a, b, r, -, rfl⟩ | ⟨a, b, v, w, -, rfl⟩ | ⟨a, hi, rfl⟩ |
    ⟨a, addr, -, rfl⟩ | ⟨mode, bit, target, -, rfl⟩
  · exact .inl rfl
  · exact .inl rfl
  · exact .inl rfl
  · exact .inl rfl
  · exact .inr ⟨a, hi, rfl⟩
  · exact .inl rfl
  · split <;> exact .inl rfl

/-- A step changes neither the configuration nor the Program Store, and no load completes in it. -/
theorem step_kept (h : step s = .next t) : t.params = s.params ∧ t.p = s.p ∧ t.loaded = s.loaded := by
  rcases step_inv h with ⟨-, rfl⟩ | ⟨-, -, he⟩
  · exact ⟨rfl, rfl, rfl⟩
  · obtain ⟨hparams, hp, -, hloaded, -⟩ := exec_bookkeepingKept he
    exact ⟨hparams, hp, hloaded⟩

end Frames

/-! ### A J's decision and the flags it tests (R81, R87) -/

section Jumps

variable {s : State}

/-- A J falls through in mode 0 on a set bit and in mode 1 on a clear bit, and in no other case (R87). -/
theorem ite_jumpTaken (mode : Nibble) (b : Bool) (target next : Word) :
    (if jumpTaken mode b then target else next) =
      if mode.toNat = 0 ∧ b = true then next else if mode.toNat = 1 ∧ b = false then next else target := by
  unfold jumpTaken
  split <;> cases b <;> simp_all

/-- The PC a J leaves. -/
theorem exec_j_pc (mode bit : Nibble) (target : Word) (s : State) :
    ∃ t, exec (.j mode bit target) s = .next t ∧
      t.pc = if jumpTaken mode (getBit s.flags bit.toNat) then target else s.pc :=
  ⟨_, rfl, by rw [apply_ite State.pc, State.pc_setPc]⟩

/-- The bit among GT, EQ and LT that CMP sets (R81). -/
theorem getBit_compareFlags (f a b : Word) {p : Nat} (hp : p < 3) :
    getBit (compareFlags f a b) p = decide (p = if b.toNat < a.toNat then gtBit else if a = b then eqBit else ltBit) := by
  have hlow : getBit (f &&& 0xFFF8#16) p = false := by
    interval_cases p <;> simp [getBit]
  rw [compareFlags_eq, getBit, BitVec.getLsbD_or, ← getBit, hlow, Bool.false_or]
  split
  · interval_cases p <;> decide
  · split <;> interval_cases p <;> decide

theorem getBit_compareFlags_gt (f a b : Word) : getBit (compareFlags f a b) 0 = decide (b.toNat < a.toNat) := by
  rw [getBit_compareFlags f a b (by decide), decide_eq_decide]
  split
  · simp [*, gtBit]
  · split <;> simp [*, eqBit, ltBit]

theorem getBit_compareFlags_eq (f a b : Word) : getBit (compareFlags f a b) 1 = decide (a = b) := by
  rw [getBit_compareFlags f a b (by decide), decide_eq_decide]
  split
  · have hne : a ≠ b := by rintro rfl; omega
    simp [hne, gtBit]
  · split <;> simp [*, eqBit, ltBit]

theorem getBit_compareFlags_lt (f a b : Word) : getBit (compareFlags f a b) 2 = decide (a.toNat < b.toNat) := by
  rw [getBit_compareFlags f a b (by decide), decide_eq_decide]
  split
  · have hle : ¬ a.toNat < b.toNat := by omega
    simp [hle, gtBit]
  · split
    · simp [*, eqBit]
    · have hlt : a.toNat < b.toNat := by bv_omega
      simp [hlt, ltBit]

/-- What CMP answers where its selectors exist (R81). -/
theorem exec_cmp {a b : Sel} (h : SelectorsExist s [a, b]) :
    exec (.cmp a b) s = .next (s.setFlags (compareFlags s.flags (s.readReg a) (s.readReg b))) :=
  State.complete_done h rfl

/-- A J in the cycle after an instruction that left FLAGS at `f` tests `f` (R113). -/
theorem exec_j_after_setFlags (mode bit : Nibble) (target : Word) (s : State) (f : Word) :
    ∃ u, exec (.j mode bit target) (s.setFlags f).beginCycle = .next u ∧
      u.pc = if jumpTaken mode (getBit f bit.toNat) then target else s.pc + 2 := by
  simpa using exec_j_pc mode bit target (s.setFlags f).beginCycle

end Jumps

/-! ### The machine's invariant -/

section Invariant

variable {s t : State} {i : Instr}

/-- No reserved bit of FLAGS and at most one of GT, EQ and LT (R25, R79). -/
abbrev LegalFlags (f : Word) : Prop := f ∈ [0x0000#16, 0x0001#16, 0x0002#16, 0x0004#16]

theorem LegalFlags.reserved_clear {f : Word} (h : LegalFlags f) : f &&& 0xFFF8#16 = 0#16 := by
  have hall : ∀ f ∈ [0x0000#16, 0x0001#16, 0x0002#16, 0x0004#16], f &&& 0xFFF8#16 = 0#16 := by simp
  exact hall f h

theorem LegalFlags.truthFlags {f : Word} (h : LegalFlags f) (r : Word) : LegalFlags (truthFlags f r) := by
  rw [truthFlags_eq, h.reserved_clear]
  split <;> decide

theorem LegalFlags.compareFlags {f : Word} (h : LegalFlags f) (a b : Word) : LegalFlags (compareFlags f a b) := by
  rw [compareFlags_eq, h.reserved_clear]
  split
  · decide
  · split <;> decide

/-- Under the policy `fault` only AND, OR and CMP write FLAGS, and they write it legally. -/
theorem exec_legalFlags (h : exec i s = .next t) (hfault : s.params.slotPolicy = .fault) (hf : LegalFlags s.flags) :
    LegalFlags t.flags := by
  rcases exec_cases h with ⟨c, -, rfl⟩ | ⟨d, v, -, hp, rfl⟩ | ⟨a, b, r, -, rfl⟩ | ⟨a, b, v, w, -, rfl⟩ | ⟨a, -, rfl⟩ |
    ⟨a, addr, -, rfl⟩ | ⟨mode, bit, target, -, rfl⟩
  · exact hf
  · obtain hw | ⟨-, hd⟩ := (protectedDest_eq_false_iff d).1 hp
    · rw [hw] at hfault
      cases hfault
    · have hkept : (s.writeReg d v).flags = s.flags := State.readReg_writeReg_other v hd.symm
      rwa [hkept]
  · rw [State.flags_setFlags]
    exact hf.truthFlags r
  · rw [State.flags_setFlags]
    exact hf.compareFlags v w
  · exact hf
  · exact hf
  · split
    · rwa [State.setPc_flags]
    · exact hf

theorem exec_memoryWf (h : exec i s = .next t) (hwf : s.MemoryWf) : t.MemoryWf :=
  exec_keeps h hwf (fun c _ => State.halt_memoryWf c hwf) (fun r v => State.writeReg_memoryWf r v hwf)
    (fun addr v => State.writeData_memoryWf v addr hwf) (fun v => State.emit_memoryWf v hwf)

/-- An instruction halts with a cause that is not None, or leaves the halt state alone (R28, R93). -/
theorem exec_causeIffHalted (h : exec i s = .next t) (hc : s.haltCause = .none ↔ s.halted = false) :
    t.haltCause = .none ↔ t.halted = false :=
  exec_keeps (P := fun u => u.haltCause = .none ↔ u.halted = false) h hc
    (fun c hne => by simp [hne]) (fun _ _ => hc) (fun _ _ => hc) (fun _ => hc)

theorem MachineInv.memoryWf (h : MachineInv s) : s.MemoryWf := ⟨h.dataCanonical, h.programCanonical⟩

theorem cycle_machineInv (h : MachineInv s) (hl : s.loaded = true) (he : exec i s.beginCycle = .next t) :
    MachineInv t := by
  obtain ⟨hparams, -, -, hloaded, hcycles⟩ := exec_bookkeepingKept he
  obtain ⟨hd, hp⟩ := exec_memoryWf he (State.beginCycle_memoryWf h.memoryWf)
  refine ⟨hd, hp, exec_causeIffHalted he h.causeIffHalted, fun hfault => ?_, fun hzero => ?_, fun hunloaded => ?_⟩
  · rw [hparams] at hfault
    refine exec_legalFlags he hfault ?_
    rw [State.beginCycle_flags]
    exact h.flagsLegal hfault
  · simp [hcycles] at hzero
  · simp [hloaded, hl] at hunloaded

theorem step_machineInv (h : MachineInv s) (hs : step s = .next t) : MachineInv t := by
  rcases step_inv hs with ⟨-, rfl⟩ | ⟨-, hl, he⟩
  · exact h
  · exact cycle_machineInv h hl he

theorem powerOn_machineInv (params : Params) (draw : Nat) : MachineInv (State.powerOn params draw) where
  dataCanonical     := rfl
  programCanonical  := ⟨rfl, rfl⟩
  causeIffHalted    := iff_of_true rfl rfl
  flagsLegal _      := by simp [State.flags]
  freshBeforeCycles := fun _ => ⟨fun r => State.powerOn_readReg r params draw, rfl, rfl⟩
  noCycleBeforeLoad := fun _ => rfl

theorem hostReset_machineInv (h : MachineInv s) : MachineInv s.hostReset where
  dataCanonical     := (State.hostReset_memoryWf h.memoryWf).1
  programCanonical  := h.programCanonical
  causeIffHalted    := iff_of_true rfl rfl
  flagsLegal _      := by simp [State.flags]
  freshBeforeCycles := fun _ => ⟨s.hostReset_readReg, rfl, rfl⟩
  noCycleBeforeLoad := fun _ => rfl

end Invariant

/-! ### Host actions (R104, R108, R110) -/

section HostActions

variable {s t : State} {words : List Word}

/-- The state a completed load leaves: `hostLoad_of_fresh` and `hostLoad_inv` tie it to `hostLoad`. -/
def State.withProgram (s : State) (words : List Word) : State := { s with p := Memory.ofWords 0 words, loaded := true }

theorem hostLoad_of_fresh (hc : s.cycles = 0) (hw : words.length ≤ Config.bankWords) :
    hostLoad words s = .next (s.withProgram words) := by
  simp [hostLoad, hc, hw, State.withProgram]

/-- The only way a load completes (R108, R111). -/
theorem hostLoad_inv (h : hostLoad words s = .next t) :
    s.cycles = 0 ∧ words.length ≤ Config.bankWords ∧ t = s.withProgram words := by
  unfold hostLoad at h
  split at h
  · rename_i hc
    split at h
    · rename_i hw
      cases h
      exact ⟨hc, hw, rfl⟩
    · cases h
  · cases h

/-- A load of a fresh core keeps the invariant: it writes the Program Store alone, in canonical form. -/
theorem withProgram_machineInv (h : MachineInv s) (hc : s.cycles = 0) (hw : words.length ≤ Config.bankWords) :
    MachineInv (s.withProgram words) where
  dataCanonical     := h.dataCanonical
  programCanonical  := ⟨Memory.wf_ofWords hw, Memory.noSentinel_ofWords⟩
  causeIffHalted    := h.causeIffHalted
  flagsLegal        := h.flagsLegal
  freshBeforeCycles := h.freshBeforeCycles
  noCycleBeforeLoad := fun _ => hc

theorem hostAct_params {act : HostAction} (h : hostAct act s = .next t) : t.params = s.params := by
  cases act with
  | reset =>
    cases h
    rfl
  | load words =>
    obtain ⟨-, -, rfl⟩ := hostLoad_inv h
    rfl
  | step => exact (step_kept h).1

theorem hostAct_machineInv {act : HostAction} (hinv : MachineInv s) (h : hostAct act s = .next t) : MachineInv t := by
  cases act with
  | reset =>
    cases h
    exact hostReset_machineInv hinv
  | load words =>
    obtain ⟨hc, hw, rfl⟩ := hostLoad_inv h
    exact withProgram_machineInv hinv hc hw
  | step => exact step_machineInv hinv h

theorem afterAction_of_next {act : HostAction} (h : hostAct act s = .next t) : afterAction act s = t := by
  simp [afterAction, h]

/-- The host is left with the next state of its action, or with the state it had. -/
theorem afterAction_cases (act : HostAction) (s : State) :
    hostAct act s = .next (afterAction act s) ∨ afterAction act s = s := by
  unfold afterAction
  split
  · exact .inl ‹_›
  · exact .inr rfl
  · exact .inr rfl

/-- What every completed host action keeps, every sequence of host actions keeps. -/
theorem afterActions_induction {P : State → Prop} (hact : ∀ act s t, P s → hostAct act s = .next t → P t)
    (acts : List HostAction) (h : P s) : P (afterActions acts s) := by
  induction acts generalizing s with
  | nil => exact h
  | cons act acts ih =>
    apply ih
    rcases afterAction_cases act s with hnext | hsame
    · exact hact act s _ h hnext
    · rwa [hsame]

/-- Reset and then load of at most 65536 words is never refused. -/
theorem afterActions_reset_load (hw : words.length ≤ Config.bankWords) (s : State) :
    afterActions [.reset, .load words] s = s.hostReset.withProgram words :=
  afterAction_of_next (act := .load words) (hostLoad_of_fresh s.hostReset_cycles hw)

end HostActions

/-! ### Observable equality is kept by every operation -/

section Observation

variable {s t : State}

namespace ObservablyEqual

variable (h : ObservablyEqual s t)
include h

theorem nreg : t.nreg = s.nreg := by
  rw [State.nreg, h.params, State.nreg]

theorem pc : t.pc = s.pc := h.regs 0

theorem flags : t.flags = s.flags := h.regs 1

theorem fetchWord1 : t.fetchWord1 = s.fetchWord1 := by
  rw [State.fetchWord1, h.pc, h.program, State.fetchWord1]

theorem fetchWord2 : t.fetchWord2 = s.fetchWord2 := by
  rw [State.fetchWord2, h.pc, h.program, State.fetchWord2]

theorem operandFault (used : List Sel) (dest : Option Sel) : t.operandFault used dest = s.operandFault used dest := by
  have hvalid : t.validSel = s.validSel := by
    funext r
    rw [State.validSel, h.nreg, State.validSel]
  have hprot : t.protectedDest dest = s.protectedDest dest := by
    unfold State.protectedDest
    rw [h.params]
  rw [State.operandFault, State.validSels, hvalid, hprot, State.operandFault, State.validSels]

theorem writeReg (r : Sel) {v w : Word} (hw : w = v) : ObservablyEqual (s.writeReg r v) (t.writeReg r w) :=
  { h with regs := fun q => by rw [State.readReg_writeReg, State.readReg_writeReg, h.nreg, h.regs, hw] }

theorem writeData (a : Word) {v w : Word} (hw : w = v) : ObservablyEqual (s.writeData a v) (t.writeData a w) :=
  { h with data := fun b => by rw [State.readData_writeData, State.readData_writeData, h.data, hw] }

theorem emit {v w : Word} (hw : w = v) : ObservablyEqual (s.emit v) (t.emit w) :=
  { h with out := by rw [State.emit_out, State.emit_out, h.out, hw] }

theorem halt (c : HaltCause) : ObservablyEqual (s.halt c) (t.halt c) :=
  { h with halted := rfl, haltCause := rfl }

theorem beginCycle : ObservablyEqual s.beginCycle t.beginCycle :=
  { h.writeReg 0 (congrArg (· + 2) h.pc) with cycles := congrArg (· + 1) h.cycles }

end ObservablyEqual

/-- Both outcomes are next states, and no observation tells them apart. -/
def NextAlike (o o' : Host.Outcome State Fault Refusal) : Prop :=
  ∃ s t, o = .next s ∧ o' = .next t ∧ ObservablyEqual s t

theorem NextAlike.of_next (h : ObservablyEqual s t) : NextAlike (.next s) (.next t) := ⟨s, t, rfl, rfl, h⟩

theorem complete_nextAlike {done done' : State} (h : ObservablyEqual s t) (hdone : ObservablyEqual done done')
    (used : List Sel) (dest : Option Sel) : NextAlike (s.complete used dest done) (t.complete used dest done') := by
  rw [State.complete, State.complete, h.operandFault]
  cases s.operandFault used dest with
  | none => exact .of_next hdone
  | some c => exact .of_next (h.halt c)

/-- An instruction reads registers and Data Store words alone, so observably equal states execute alike (R31, R42). -/
theorem exec_nextAlike (i : Instr) (h : ObservablyEqual s t) : NextAlike (exec i s) (exec i t) := by
  cases i with
  | add a b c => exact complete_nextAlike h (h.writeReg c (by rw [h.regs, h.regs])) _ _
  | sub a b c => exact complete_nextAlike h (h.writeReg c (by rw [h.regs, h.regs])) _ _
  | not a => exact complete_nextAlike h (h.writeReg a (by rw [h.regs])) _ _
  | and a b => exact complete_nextAlike h (h.writeReg 1 (by rw [h.flags, h.regs, h.regs])) _ _
  | or a b => exact complete_nextAlike h (h.writeReg 1 (by rw [h.flags, h.regs, h.regs])) _ _
  | cmp a b => exact complete_nextAlike h (h.writeReg 1 (by rw [h.flags, h.regs, h.regs])) _ _
  | cpy a b => exact complete_nextAlike h (h.writeReg b (h.regs a)) _ _
  | out a => exact complete_nextAlike h (h.emit (h.regs a)) _ _
  | mov a addr => exact complete_nextAlike h (h.writeData addr (h.regs a)) _ _
  | ld a addr => exact complete_nextAlike h (h.writeReg a (h.data addr)) _ _
  | ldv a value => exact complete_nextAlike h (h.writeReg a rfl) _ _
  | reservedB => exact .of_next (h.halt _)
  | reservedC => exact .of_next (h.halt _)
  | reservedD => exact .of_next (h.halt _)
  | hlt => exact .of_next (h.halt _)
  | j mode bit target =>
    refine .of_next ?_
    rw [h.flags]
    split
    · exact h.writeReg 0 rfl
    · exact h

/-- Observably equal cores step alike, where the step is not refused (R64, R65, R111). -/
theorem step_nextAlike (h : ObservablyEqual s t) (hmay : s.halted = true ∨ s.loaded = true) :
    NextAlike (step s) (step t) := by
  unfold step
  rw [h.halted, h.loaded]
  split
  · exact .of_next h
  · rename_i hrun
    have hl : s.loaded = true := hmay.resolve_left hrun
    rw [if_pos hl, if_pos hl, cycle, cycle, h.fetchWord1, h.fetchWord2]
    exact exec_nextAlike _ h.beginCycle

/-- Observably equal loaded cores run alike under any fuel (R75). -/
theorem runFor_nextAlike (k : Nat) (h : ObservablyEqual s t) (hl : s.loaded = true) :
    NextAlike (runFor k s) (runFor k t) := by
  induction k generalizing s t with
  | zero => exact .of_next h
  | succ k ih =>
    unfold runFor
    rw [h.halted]
    split
    · exact .of_next h
    · obtain ⟨s', t', hs, ht, h'⟩ := step_nextAlike h (.inr hl)
      rw [hs, ht]
      obtain ⟨-, -, hloaded⟩ := step_kept hs
      exact ih h' (hloaded.trans hl)

/-- Reset and load leave nothing of the past but the Data Store and the configuration (R104, R108). -/
theorem reset_load_observablyEqual (hparams : t.params = s.params)
    (hdata : ∀ a : Word, t.hostReset.readData a = s.hostReset.readData a) (words : List Word) :
    ObservablyEqual (s.hostReset.withProgram words) (t.hostReset.withProgram words) where
  params    := hparams
  regs r    := (t.hostReset_readReg r).trans (s.hostReset_readReg r).symm
  program _ := rfl
  data      := hdata
  halted    := rfl
  haltCause := rfl
  out       := rfl
  loaded    := rfl
  cycles    := rfl

end Observation

end Sys2Proof.Machine

/-! ### The obligations -/

namespace Sys2Proof.Machine

/-- Settles O41: each part of the invariant by the cases of what one instruction can do. -/
theorem stepKeepsTheMachineInvariant : Obligations.StepKeepsTheMachineInvariant :=
  fun _ _ hinv hstep => step_machineInv hinv hstep

/-- Settles O45: every operation keeps observable equality, so every instruction does, and so does a step. -/
theorem observablyEqualStatesStepAlike : Obligations.ObservablyEqualStatesStepAlike := by
  intro s t s' h hstep
  have hmay : s.halted = true ∨ s.loaded = true := (step_inv hstep).imp And.left fun ⟨_, hl, _⟩ => hl
  obtain ⟨u, t', hu, ht, h'⟩ := step_nextAlike h hmay
  rw [hstep] at hu
  cases hu
  exact ⟨t', ht, h'⟩

/-- Settles O25: a J's own rule, and for the rest that only permitted writers change the PC. -/
theorem pcAfterEachCycle : Obligations.PcAfterEachCycle := by
  intro s t hready hstep
  rw [step_of_ready hready] at hstep
  refine ⟨fun mode bit target hj => ?_, fun i hi hnotJ hkept => ?_⟩
  · rw [hj] at hstep
    obtain ⟨u, hu, hpc⟩ := exec_j_pc mode bit target s.beginCycle
    rw [hu] at hstep
    cases hstep
    rw [hpc, ite_jumpTaken, State.beginCycle_flags, State.beginCycle_pc, getBit_eq]
    simp only [decide_eq_true_eq, decide_eq_false_iff_not, Nat.mod_two_not_eq_one]
  · rw [hi] at hstep
    have hpc : t.readReg 0 = s.beginCycle.readReg 0 := by
      obtain hsame | ⟨hd, hallowed⟩ | ⟨h01, -⟩ | ⟨-, mode, bit, hj⟩ := exec_readReg_cases hstep 0
      · exact hsame
      · have hw : s.params.slotPolicy = .write := slotPolicy_of_destinationAllowed hallowed (.inl rfl)
        simp [hw, hd] at hkept
      · cases h01
      · exact absurd hj (hnotJ mode bit _)
    exact hpc.trans s.beginCycle_pc

/-- Settles O26: the only writers of a slot, read at slots 0 and 1. -/
theorem onlyPermittedWritersOfPcAndFlags : Obligations.OnlyPermittedWritersOfPcAndFlags := by
  refine fun i s t h => ⟨fun hne => ?_, fun hne => ?_⟩
  · obtain hsame | ⟨hd, hallowed⟩ | ⟨h01, -⟩ | ⟨-, hj⟩ := exec_readReg_cases h 0
    · exact absurd hsame hne
    · exact .inr ⟨slotPolicy_of_destinationAllowed hallowed (.inl rfl), hd⟩
    · cases h01
    · exact .inl hj
  · obtain hsame | ⟨hd, hallowed⟩ | ⟨-, hflag⟩ | ⟨h10, -⟩ := exec_readReg_cases h 1
    · exact absurd hsame hne
    · exact .inr ⟨slotPolicy_of_destinationAllowed hallowed (.inr rfl), hd⟩
    · exact .inl hflag
    · cases h10

/-- Settles O27: the cases of what one instruction can do. -/
theorem onlyOutExtendsTheOutput : Obligations.OnlyOutExtendsTheOutput :=
  fun _ _ _ h => exec_out_cases h

/-- Settles O35: the J reads the flag bit that the CMP has just decided. -/
theorem compareThenJumpTestsTheNewFlags : Obligations.CompareThenJumpTestsTheNewFlags := by
  intro a b target s hsel
  have hjump (mode bit : Nibble) := exec_j_after_setFlags mode bit target s
    (compareFlags s.flags (s.readReg a) (s.readReg b))
  refine ⟨_, exec_cmp hsel, State.setFlags_pc _, ?_, ?_, ?_, ?_⟩
  · simpa [jumpTaken, getBit_compareFlags_gt] using hjump 1 0
  · simpa [jumpTaken, getBit_compareFlags_eq] using hjump 1 1
  · simpa [jumpTaken, getBit_compareFlags_lt] using hjump 1 2
  · simpa [jumpTaken, getBit_compareFlags_eq] using hjump 0 1

/-- Settles O40: no completed host action changes the parameters. -/
theorem parametersNeverChange : Obligations.ParametersNeverChange :=
  fun acts s => afterActions_induction (P := fun t => t.params = s.params)
    (fun _ _ _ hkept hact => (hostAct_params hact).trans hkept) acts rfl

/-- Settles O44: the invariant holds at power-on and every completed host action keeps it. -/
theorem reachableStatesSatisfyTheInvariant : Obligations.ReachableStatesSatisfyTheInvariant :=
  fun params draw acts => afterActions_induction (P := MachineInv)
    (fun _ _ _ hinv hact => hostAct_machineInv hinv hact) acts (powerOn_machineInv params draw)

/-- Settles O46: after reset and load the two cores are observably equal, and loaded cores that are run alike. -/
theorem replayAfterResetAndLoad : Obligations.ReplayAfterResetAndLoad := by
  intro s t words k hparams hw hdata
  rw [afterActions_reset_load hw, afterActions_reset_load hw]
  exact runFor_nextAlike k (reset_load_observablyEqual hparams hdata words) rfl

/-- Settles O6: the cycle of a ready core, with the wrapping sums computed. -/
theorem fetchAndPcWrapAtTheTop : Obligations.FetchAndPcWrapAtTheTop := by
  refine ⟨fun s hready hpc => ?_, fun s hready hpc => ?_⟩
  · rw [State.beginCycle_pc, step_of_ready hready, hpc]
    exact ⟨rfl, rfl⟩
  · rw [State.beginCycle_pc, step_of_ready hready, hpc]
    exact ⟨rfl, rfl⟩

/-- Settles O36: the zeroed register file, and fields that `State.powerOn` names. -/
theorem powerOnState : Obligations.PowerOnState :=
  fun params draw => ⟨fun r => State.powerOn_readReg r params draw, rfl, rfl, rfl, fun _ => rfl, rfl, rfl⟩

/-- Settles O42: `State.reset` is the power-on of the shown parameters. -/
theorem powerOnSatisfiesTheInvariant : Obligations.PowerOnSatisfiesTheInvariant :=
  ⟨powerOn_machineInv, powerOn_machineInv Params.shown 0⟩

end Sys2Proof.Machine

/-! ## The memory (20_memory.md): the banks through an instruction and through a run -/

namespace Sys2Proof.Machine

/-! ### What holds through a run (R75) -/

section Runs

variable {s t u : State} {k : Nat}

/-- A run that starts with a step goes on from where the step leads. -/
theorem runFor_succ_of_step (hrunning : s.halted = false) (hstep : step s = .next u) (k : Nat) :
    runFor (k + 1) s = runFor k u := by
  simp [runFor, hrunning, hstep]

/-- The only ways a run with fuel left answers a next state. -/
theorem runFor_succ_inv (h : runFor (k + 1) s = .next t) :
    (s.halted = true ∧ t = s) ∨ (s.halted = false ∧ ∃ u, step s = .next u ∧ runFor k u = .next t) := by
  unfold runFor at h
  split at h
  · rename_i hhalted
    cases h
    exact .inl ⟨hhalted, rfl⟩
  · rename_i hrunning
    cases hstep : step s with
    | next u => exact .inr ⟨by simpa using hrunning, u, rfl, by simpa [hstep] using h⟩
    | fault r => simp [hstep] at h
    | refused r => simp [hstep] at h

/-- What every step taken along a run keeps, the run keeps. -/
theorem runFor_keeps {P : State → Prop}
    (hkeep : ∀ n u v, n < k → runFor n s = .next u → P u → step u = .next v → P v)
    (hrun : runFor k s = .next t) (h : P s) : P t := by
  induction k generalizing s with
  | zero =>
    cases hrun
    exact h
  | succ k ih =>
    obtain ⟨-, rfl⟩ | ⟨hrunning, s', hstep, hrest⟩ := runFor_succ_inv hrun
    · exact h
    · have hs' : P s' := hkeep 0 s s' k.succ_pos rfl h hstep
      refine ih (fun n u v hn hu => ?_) hrest hs'
      exact hkeep (n + 1) u v (Nat.succ_lt_succ hn) ((runFor_succ_of_step hrunning hstep n).trans hu)

/-- A run changes neither the configuration nor the Program Store, and no load completes in it. -/
theorem runFor_kept (hrun : runFor k s = .next t) : t.params = s.params ∧ t.p = s.p ∧ t.loaded = s.loaded := by
  refine runFor_keeps (P := fun u => u.params = s.params ∧ u.p = s.p ∧ u.loaded = s.loaded) ?_ hrun ⟨rfl, rfl, rfl⟩
  rintro n u v - - ⟨hparams, hp, hloaded⟩ hstep
  obtain ⟨hparams', hp', hloaded'⟩ := step_kept hstep
  exact ⟨hparams'.trans hparams, hp'.trans hp, hloaded'.trans hloaded⟩

end Runs

/-! ### The Program Store: what a load leaves in it (R44, R108) -/

section ProgramStore

variable {s t : State}

theorem readProgram_congr (hp : t.p = s.p) (a : Word) : t.readProgram a = s.readProgram a := by
  rw [State.readProgram, hp, State.readProgram]

/-- The Program Store after a load: the words, and the sentinel past the last one. -/
theorem withProgram_readProgram (s : State) (words : List Word) (a : Word) :
    (s.withProgram words).readProgram a = (words[a.toNat]?).getD Config.sentinel := by
  have h := Memory.find?_ofWords (a := 0) (ws := words) a.toNat
  rwa [Nat.zero_add] at h

/-- The sentinel's opcode is HLT's, whatever word 2 is (R61, R88). -/
theorem decode_sentinel (w2 : Word) : decode Config.sentinel w2 = .hlt := rfl

/-- A ready core that fetches the sentinel halts as by HLT (R44, R88). -/
theorem step_sentinel_haltsWith (h : Ready s) (hfetch : s.readProgram s.pc = Config.sentinel) :
    HaltsWith .requested s.beginCycle (step s) := by
  rw [step_of_ready h, hfetch, decode_sentinel]
  exact halt_haltsWith s.beginCycle .requested

end ProgramStore

/-! ### The Data Store: who writes it (R37) -/

section DataWrites

variable {s t : State} {i : Instr}

/-- The only writer of a Data Store address: a MOV to it. -/
theorem exec_readData_cases (h : exec i s = .next t) (b : Word) :
    t.readData b = s.readData b ∨ ∃ a, i = .mov a b := by
  rcases exec_cases h with ⟨_, -, rfl⟩ | ⟨_, _, -, -, rfl⟩ | ⟨_, _, _, -, rfl⟩ | ⟨_, _, _, _, -, rfl⟩ | ⟨_, -, rfl⟩ |
    ⟨a, addr, hi, rfl⟩ | ⟨_, _, _, -, rfl⟩
  · exact .inl rfl
  · exact .inl rfl
  · exact .inl rfl
  · exact .inl rfl
  · exact .inl rfl
  · by_cases hb : b = addr
    · exact .inr ⟨a, hb ▸ hi⟩
    · exact .inl (State.readData_writeData_other _ hb)
  · split <;> exact .inl rfl

/-- A step that executes no MOV to `b` leaves the word at `b` as it was. -/
theorem step_readData (h : step s = .next t) {b : Word}
    (hmov : ∀ r, decode (s.readProgram s.pc) (s.readProgram (s.pc + 1)) ≠ .mov r b) : t.readData b = s.readData b := by
  rcases step_inv h with ⟨-, rfl⟩ | ⟨-, -, he⟩
  · rfl
  · obtain hsame | ⟨r, hr⟩ := exec_readData_cases he b
    · exact hsame
    · exact absurd hr (hmov r)

end DataWrites

/-! ### The Data Store: who reads it (R37) -/

section DataReads

variable {s t : State} {i : Instr}

/-- The same core with other Data Store contents. -/
def State.withData (s : State) (cells : Memory) (draw : Nat) : State := { s with d := cells, dataDraw := draw }

/-- The operand checks do not look at the Data Store: they answer alike over an effect that does not either, whatever
cells that effect leaves. -/
theorem complete_withData {used : List Sel} {dest : Option Sel} {done : State} {cells : Memory} {draw : Nat}
    (left : Memory) (h : s.complete used dest done = .next t) :
    ∃ cells', (s.withData cells draw).complete used dest (done.withData left draw) = .next (t.withData cells' draw) := by
  have hfault : (s.withData cells draw).operandFault used dest = s.operandFault used dest := rfl
  rw [State.complete] at h ⊢
  rw [hfault]
  cases hf : s.operandFault used dest with
  | none =>
    rw [hf] at h
    cases h
    exact ⟨left, rfl⟩
  | some c =>
    rw [hf] at h
    cases h
    exact ⟨cells, rfl⟩

/-- An instruction that is not an LD gives the same next state but for the Data Store, whatever the Data Store holds. -/
theorem exec_withData (hld : ∀ a addr, i ≠ .ld a addr) (h : exec i s = .next t) (cells : Memory) (draw : Nat) :
    ∃ cells', exec i (s.withData cells draw) = .next (t.withData cells' draw) := by
  cases i with
  | add | sub | not | and | or | cmp | cpy | out | ldv => exact complete_withData cells h
  | mov a addr => exact complete_withData (done := s.writeData addr (s.readReg a)) (cells.put addr.toNat (s.readReg a)) h
  | ld a addr => exact absurd rfl (hld a addr)
  | reservedB | reservedC | reservedD | hlt =>
    cases h
    exact ⟨cells, rfl⟩
  | j mode bit target =>
    cases h
    have hflags : (s.withData cells draw).flags = s.flags := rfl
    refine ⟨cells, ?_⟩
    rw [exec, execJ, hflags]
    split <;> rfl

end DataReads

/-! ### MOV and LD where they complete (R84, R85) -/

section MovAndLd

variable {s : State} {a : Sel}

theorem exec_mov (h : SelectorsExist s [a]) (addr : Word) :
    exec (.mov a addr) s = .next (s.writeData addr (s.readReg a)) :=
  State.complete_done h rfl

theorem exec_ld (h : SelectorsExist s [a]) (hallowed : DestinationAllowed s a) (addr : Word) :
    exec (.ld a addr) s = .next (s.writeReg a (s.readData addr)) :=
  State.complete_done h ((protectedDest_eq_false_iff a).2 hallowed)

/-- An LD executed next loads the word that the Data Store holds now. -/
theorem exec_ld_beginCycle (h : SelectorsExist s [a]) (hallowed : DestinationAllowed s a) (addr : Word) :
    ∃ u, exec (.ld a addr) s.beginCycle = .next u ∧ u.readReg a = s.readData addr :=
  ⟨_, exec_ld (s := s.beginCycle) h hallowed addr, State.readReg_writeReg_same _ (h a (List.mem_singleton_self a))⟩

end MovAndLd

/-! ### The obligations -/

/-- Settles O28: a run keeps the Program Store's cells. -/
theorem programStoreIsConstantDuringARun : Obligations.ProgramStoreIsConstantDuringARun := by
  intro k s t hrun
  obtain ⟨-, hp, -⟩ := runFor_kept hrun
  exact readProgram_congr hp

/-- Settles O29: an address that has changed is a MOV's own. -/
theorem onlyMovWritesTheDataStore : Obligations.OnlyMovWritesTheDataStore := by
  intro i s t h
  by_cases hmov : ∃ a addr, i = .mov a addr
  · obtain ⟨a, addr, rfl⟩ := hmov
    refine .inr ⟨a, addr, rfl, fun b hb => (exec_readData_cases h b).resolve_right ?_⟩
    rintro ⟨a', heq⟩
    cases heq
    exact hb rfl
  · exact .inl fun b => (exec_readData_cases h b).resolve_right fun ⟨a, hi⟩ => hmov ⟨a, b, hi⟩

/-- Settles O30: the two next states differ in their Data Stores alone. -/
theorem onlyLdReadsTheDataStore : Obligations.OnlyLdReadsTheDataStore := by
  intro i s t cells draw hld h
  obtain ⟨cells', hu⟩ := exec_withData hld h cells draw
  exact ⟨_, hu, fun _ => rfl, rfl, rfl, rfl, fun _ => rfl⟩

/-- Settles O33: the LD reads the Data Store that the MOV has just written. -/
theorem movThenLdReturnsTheStoredWord : Obligations.MovThenLdReturnsTheStoredWord := by
  intro a b addr other s hsel hallowed
  have ha : SelectorsExist s [a] := fun r hr => hsel r (List.mem_append_left [b] hr)
  have hb : SelectorsExist s [b] := fun r hr => hsel r (List.mem_cons_of_mem a hr)
  have hload (x : Word) := exec_ld_beginCycle (s := s.writeData addr (s.readReg a)) hb hallowed x
  refine ⟨_, exec_mov ha addr, ?_, fun hne => ?_⟩
  · simpa only [State.readData_writeData_same] using hload addr
  · simpa only [State.readData_writeData_other _ hne] using hload other

/-- Settles O34: no step along the run changes the word. -/
theorem dataWordHoldsUntilItsNextMov : Obligations.DataWordHoldsUntilItsNextMov := by
  intro a k s t hmov hrun
  refine runFor_keeps (P := fun u => u.readData a = s.readData a) ?_ hrun rfl
  intro n u v hn hu hkept hstep
  exact (step_readData hstep (hmov n u hn hu)).trans hkept

/-- Settles O39: past the loaded words the run fetches the sentinel that the load put there. -/
theorem strayFetchHaltsRequested : Obligations.StrayFetchHaltsRequested := by
  intro words s t u k hload hrun hrunning hpast
  obtain ⟨-, -, rfl⟩ := hostLoad_inv hload
  obtain ⟨-, hp, hloaded⟩ := runFor_kept hrun
  have hfetch : u.readProgram u.pc = Config.sentinel := by
    rw [readProgram_congr hp, withProgram_readProgram, List.getElem?_eq_none hpast, Option.getD_none]
  exact step_sentinel_haltsWith ⟨hrunning, hloaded⟩ hfetch

/-- Settles O47: the word at `a` is still the one of power-on, and the LD loads it. -/
theorem ldOfAnUnwrittenCellGivesItsInitialWord : Obligations.LdOfAnUnwrittenCellGivesItsInitialWord := by
  intro params draw words a r k s t hload hmov hrun hsel hallowed
  obtain ⟨-, -, rfl⟩ := hostLoad_inv hload
  have hinit : t.readData a = Config.dataInit draw a := dataWordHoldsUntilItsNextMov a k _ t hmov hrun
  rw [← hinit]
  exact exec_ld_beginCycle hsel hallowed a

end Sys2Proof.Machine

/-! ## The encoding (30_encoding.md): decoder against encoder, and the cycle over every word pair -/

namespace Sys2Proof.Machine

/-! ### Decoder and encoder undo each other (R52 to R57, R62) -/

section Encoding

/-- Decoding an encoded instruction gives it back: word 1 is a joined word, whose fields the decoder reads. -/
theorem decode_encode (i : Instr) : decode (encode i).1 (encode i).2 = i := by
  cases i <;> exact decode_joinWord ..

variable (op f2 f3 f4 : Nibble) (f : Fields) (lit : Word)

/-- A mask acts on a joined word field by field. -/
theorem joinWord_and_joinWord (m1 m2 m3 m4 : Nibble) :
    joinWord op f2 f3 f4 &&& joinWord m1 m2 m3 m4 = joinWord (op &&& m1) (f2 &&& m2) (f3 &&& m3) (f4 &&& m4) := by
  show (op ++ f2 ++ f3 ++ f4) &&& (m1 ++ m2 ++ m3 ++ m4) = (op &&& m1) ++ (f2 &&& m2) ++ (f3 &&& m3) ++ (f4 &&& m4)
  rw [BitVec.and_append, BitVec.and_append, BitVec.and_append]

/-- The mask of a pattern that uses every field. -/
theorem joinWord_and_FFFF : joinWord op f2 f3 f4 &&& 0xFFFF#16 = joinWord op f2 f3 f4 := BitVec.and_allOnes

/-- The mask of a pattern that ignores the last field. -/
theorem joinWord_and_FFF0 : joinWord op f2 f3 f4 &&& 0xFFF0#16 = joinWord op f2 f3 0#4 :=
  (joinWord_and_joinWord op f2 f3 f4 (.allOnes 4) (.allOnes 4) (.allOnes 4) 0#4).trans
    (by simp only [BitVec.and_allOnes, BitVec.and_zero])

/-- The mask of a pattern that ignores the last two fields. -/
theorem joinWord_and_FF00 : joinWord op f2 f3 f4 &&& 0xFF00#16 = joinWord op f2 0#4 0#4 :=
  (joinWord_and_joinWord op f2 f3 f4 (.allOnes 4) (.allOnes 4) 0#4 0#4).trans
    (by simp only [BitVec.and_allOnes, BitVec.and_zero])

/-- The mask of a pattern that uses the opcode alone. -/
theorem joinWord_and_F000 : joinWord op f2 f3 f4 &&& 0xF000#16 = joinWord op 0#4 0#4 0#4 :=
  (joinWord_and_joinWord op f2 f3 f4 (.allOnes 4) 0#4 0#4 0#4).trans
    (by simp only [BitVec.and_allOnes, BitVec.and_zero])

/-- Word 1 of what four fields decode to is those fields with the ignored ones cleared, opcode by opcode (R54, R62). -/
theorem encodeWord1_decodeFields :
    encodeWord1 (decodeFields f lit) = joinWord f.op f.f2 f.f3 f.f4 &&& usedBitsOfWord1 f.op := by
  obtain ⟨⟨n, hn⟩, f2, f3, f4⟩ := f
  interval_cases n
  iterate 2 · exact (joinWord_and_FFFF ..).symm  -- ADD, SUB
  · exact (joinWord_and_FF00 ..).symm            -- NOT
  iterate 4 · exact (joinWord_and_FFF0 ..).symm  -- AND, OR, CMP, CPY
  iterate 4 · exact (joinWord_and_FF00 ..).symm  -- OUT, MOV, LD, LDV
  iterate 3 · exact (joinWord_and_F000 ..).symm  -- the reserved opcodes
  · exact (joinWord_and_FFF0 ..).symm            -- J
  · exact (joinWord_and_F000 ..).symm            -- HLT

/-- Word 2 of what four fields decode to is the literal, or 0 for an opcode that has none (R53, R62). -/
theorem encodeWord2_decodeFields :
    encodeWord2 (decodeFields f lit) = lit &&& usedBitsOfWord2 f.op := by
  obtain ⟨⟨n, hn⟩, f2, f3, f4⟩ := f
  interval_cases n
  iterate 8 · exact BitVec.and_zero.symm     -- ADD to OUT
  iterate 3 · exact BitVec.and_allOnes.symm  -- MOV, LD, LDV
  iterate 3 · exact BitVec.and_zero.symm     -- the reserved opcodes
  · exact BitVec.and_allOnes.symm            -- J
  · exact BitVec.and_zero.symm               -- HLT

/-- Encoding what a word pair decodes to clears the bits its opcode ignores: a word is the join of its fields. -/
theorem encode_decode (w1 w2 : Word) :
    encode (decode w1 w2) = (w1 &&& usedBitsOfWord1 (opcodeOf w1), w2 &&& usedBitsOfWord2 (opcodeOf w1)) := by
  have hword1 : encodeWord1 (decode w1 w2) = w1 &&& usedBitsOfWord1 (opcodeOf w1) := by
    have h := encodeWord1_decodeFields (splitWord w1) w2
    rwa [joinWord_splitWord] at h
  exact Prod.ext hword1 (encodeWord2_decodeFields ..)

/-- Instructions with the same two words are the same. -/
theorem encode_injective : Function.Injective encode := fun i i' h => by
  rw [← decode_encode i, h, decode_encode]

end Encoding

/-! ### Every instruction answers a next state (R59, R72) -/

section Totality

theorem ObservablyEqual.refl (s : State) : ObservablyEqual s s :=
  ⟨rfl, fun _ => rfl, fun _ => rfl, fun _ => rfl, rfl, rfl, rfl, rfl, rfl⟩

/-- No instruction is refused or faults: `exec_nextAlike` answers next states, here for a state beside itself. -/
theorem exec_answers (i : Instr) (s : State) : ∃ t, exec i s = .next t := by
  obtain ⟨t, -, ht, -, -⟩ := exec_nextAlike i (ObservablyEqual.refl s)
  exact ⟨t, ht⟩

end Totality

/-! ### ADD past its operand checks (R70, R76) -/

section Add

variable {s : State} {a b c : Sel}

theorem exec_add (h : SelectorsExist s [a, b, c]) (hallowed : DestinationAllowed s c) :
    exec (.add a b c) s = .next (s.writeReg c (s.readReg a + s.readReg b)) :=
  State.complete_done h ((protectedDest_eq_false_iff c).2 hallowed)

theorem exec_add_protected (h : SelectorsExist s [a, b, c]) (hfault : s.params.slotPolicy = .fault)
    (hc : c = 0 ∨ c = 1) : exec (.add a b c) s = .next (s.halt .protectedRegisterWrite) :=
  State.complete_protected h (State.protectedDest_iff.2 ⟨hfault, hc.imp (congrArg some) (congrArg some)⟩)

/-- The zero word's selectors exist in every core, since NREG is at least 5 (R5). -/
theorem selectorsExist_zeros (s : State) : SelectorsExist s [0, 0, 0] := by
  simpa [SelectorsExist] using s.zero_valid

end Add

/-! ### The word 0x0000 (R61) -/

section ZeroWord

variable {s : State}

theorem decode_zero (w2 : Word) : decode 0x0000#16 w2 = .add 0 0 0 := rfl

/-- A ready core that fetches the zero word executes `ADD r0, r0, r0`. -/
theorem step_zero (h : Ready s) (hfetch : s.readProgram s.pc = 0x0000#16) :
    step s = exec (.add 0 0 0) s.beginCycle := by
  rw [step_of_ready h, hfetch, decode_zero]

end ZeroWord

/-! ### The obligations -/

/-- Settles O1: an instruction's word 1 is joined from its fields. -/
theorem decodeInvertsEncode : Obligations.DecodeInvertsEncode := decode_encode

/-- Settles O2: opcode by opcode, the used bits are those of the fields that the instruction holds. -/
theorem encodeInvertsDecodeUpToIgnoredBits : Obligations.EncodeInvertsDecodeUpToIgnoredBits := encode_decode

/-- Settles O3: the two pairs decode to instructions of one encoding, by O2, and the encoding is injective, by O1. -/
theorem ignoredBitsChangeNothing : Obligations.IgnoredBitsChangeNothing := by
  intro w1 w2 v1 v2 hop hword1 hword2
  have hdecode : decode v1 v2 = decode w1 w2 := by
    apply encode_injective
    rw [encode_decode, encode_decode, hop, hword1, hword2]
  exact ⟨hdecode, fun s => by rw [hdecode]⟩

/-- Settles O10: the decoded instruction answers, and only the begun cycle has counted. -/
theorem everyCycleAnswersAndIsCounted : Obligations.EveryCycleAnswersAndIsCounted := by
  intro s hready
  obtain ⟨t, ht⟩ := exec_answers (decode (s.readProgram s.pc) (s.readProgram (s.pc + 1))) s.beginCycle
  exact ⟨t, (step_of_ready hready).trans ht, (exec_bookkeepingKept ht).cycles⟩

/-- Settles O4: the decoder computes on each of the eight words. -/
theorem sampleWordsDecodeAsSpecified : Obligations.SampleWordsDecodeAsSpecified :=
  ⟨rfl, rfl, rfl, rfl, rfl, rfl, rfl, rfl⟩

/-- Settles O7: the zero word is ADD to slot 0, which the policy forbids or lets write the sum to the PC. -/
theorem zeroWordAddsThePcToItself : Obligations.ZeroWordAddsThePcToItself := by
  refine ⟨decode_sentinel, decode_zero, fun s hready hfetch hfault => ?_, fun s hready hfetch hwrite => ?_⟩
  · rw [step_zero hready hfetch, exec_add_protected (s := s.beginCycle) (selectorsExist_zeros _) hfault (.inl rfl)]
    exact halt_haltsWith s.beginCycle .protectedRegisterWrite
  · refine ⟨_, (step_zero hready hfetch).trans (exec_add (selectorsExist_zeros _) (.inl hwrite)), ?_,
      writeReg_onlyRegsChange ..⟩
    rw [← State.beginCycle_pc]
    exact State.readReg_writeReg_same _ s.beginCycle.zero_valid

end Sys2Proof.Machine

/-! ## The cycle (40_cycle.md): the halted core, and the step of a ready one -/

namespace Sys2Proof.Machine

/-! ### In `Halted` (R64, R110) -/

section Halted

variable {s : State}

/-- A step in `Halted` is ignored. -/
theorem step_of_halted (h : s.halted = true) : step s = .next s := if_pos h

/-- A state that a step does not change is one that no number of steps changes, in any core. -/
theorem core_run_of_step_eq_self {M : Host.Core} {s : M.State} (hstep : M.step s = .next s) (k : Nat) :
    M.run k s = .next s := by
  induction k with
  | zero => rfl
  | succ k ih =>
    rw [Host.Core.run, hstep]
    exact ih

/-- A run in `Halted` ends at once, whatever its fuel. -/
theorem runFor_of_halted (h : s.halted = true) (k : Nat) : runFor k s = .next s := by
  cases k with
  | zero => rfl
  | succ k => exact if_pos h

end Halted

/-! ### The begun cycle (R67) -/

section BegunCycle

/-- Beginning a cycle changes no slot but the PC. -/
theorem beginCycle_regsKeptExcept_pc (s : State) : RegsKeptExcept [0] s s.beginCycle :=
  fun _ hr => State.beginCycle_readReg (List.ne_of_not_mem_cons hr)

end BegunCycle

/-! ### The obligations -/

/-- Settles O8: one step answers the same state, so by induction all of them do; a run does not begin. -/
theorem haltedCoreIgnoresSteps : Obligations.HaltedCoreIgnoresSteps := fun k _ h =>
  ⟨core_run_of_step_eq_self (M := Sys2Proof.core) (step_of_halted h) k, runFor_of_halted h k⟩

/-- Settles O5: the cycle of a ready core, and what beginning it changes and keeps. -/
theorem stepRunsDecodedInstruction : Obligations.StepRunsDecodedInstruction := by
  rintro s i hready rfl
  exact ⟨step_of_ready hready, s.beginCycle_pc, beginCycle_regsKeptExcept_pc s, fun _ => rfl, fun _ => rfl, rfl, rfl, rfl,
    rfl, rfl, rfl⟩

end Sys2Proof.Machine

/-! ## The ALU and comparison instructions (41_alu.md) -/

namespace Sys2Proof.Machine

/-! ### The outcomes of an instruction with register operands (R69, R70, R93) -/

section OperandOutcomes

variable {s done : State} {used : List Sel} {dest : Option Sel} {d : Sel}

theorem complete_haltsInvalidRegister (h : ¬ SelectorsExist s used) :
    HaltsWith .invalidRegister s (s.complete used dest done) := by
  rw [State.complete_invalid h]
  exact halt_haltsWith s .invalidRegister

theorem complete_haltsProtectedRegisterWrite (h : SelectorsExist s used) (hd : ¬ DestinationAllowed s d) :
    HaltsWith .protectedRegisterWrite s (s.complete used (some d) done) := by
  have hp : s.protectedDest (some d) = true := by
    rwa [← protectedDest_eq_false_iff, Bool.not_eq_false] at hd
  rw [State.complete_protected h hp]
  exact halt_haltsWith s .protectedRegisterWrite

/-- An instruction that writes its destination, where its operands pass the checks: the destination is one of its selectors, so
the slot exists and the write is not dropped. -/
theorem complete_writeReg (h : SelectorsExist s used) (hallowed : DestinationAllowed s d) (hd : d ∈ used) (v : Word) :
    ∃ t, s.complete used (some d) (s.writeReg d v) = .next t ∧ t.readReg d = v ∧ OnlyRegsChange [d] s t :=
  ⟨_, State.complete_done h ((protectedDest_eq_false_iff d).2 hallowed), State.readReg_writeReg_same v (h d hd),
    writeReg_onlyRegsChange s d v⟩

/-- An instruction that writes FLAGS and has no destination register, where its operands exist. -/
theorem complete_setFlags (h : SelectorsExist s used) (f : Word) :
    ∃ t, s.complete used none (s.setFlags f) = .next t ∧ t.readReg 1 = f ∧ OnlyRegsChange [1] s t :=
  ⟨_, State.complete_done h rfl, s.flags_setFlags f, writeReg_onlyRegsChange s 1 f⟩

end OperandOutcomes

/-! ### The results, in the arithmetic of the rules (R77, R81) -/

section Results

variable (f a b : Word)

/-- `a -16 b` as R77 writes it on naturals. -/
theorem toNat_sub_word : (a - b).toNat = (a.toNat + 65536 - b.toNat) % 65536 :=
  (BitVec.toNat_sub' a b).trans (congrArg (· % 65536) (Nat.add_sub_assoc b.isLt.le a.toNat).symm)

/-- FLAGS after CMP with both comparisons on naturals (R81). -/
theorem compareFlags_eq_toNat :
    compareFlags f a b = (f &&& 0xFFF8#16) |||
      (if b.toNat < a.toNat then 0x0001#16 else if a.toNat = b.toNat then 0x0002#16 else 0x0004#16) := by
  simp only [compareFlags_eq, BitVec.toNat_inj]

end Results

/-! ### The obligations -/

/-- Settles O11: `+16` is addition of naturals modulo 65536. -/
theorem addStoresTheSumModulo65536 : Obligations.AddStoresTheSumModulo65536 := by
  refine fun a b c lit s => ⟨decode_joinWord .., complete_haltsInvalidRegister, complete_haltsProtectedRegisterWrite,
    fun hsel hallowed => ?_⟩
  obtain ⟨t, ht, hsum, hframe⟩ := complete_writeReg hsel hallowed (by simp) (s.readReg a + s.readReg b)
  exact ⟨t, ht, by rw [hsum, BitVec.toNat_add], hframe⟩

/-- Settles O12: as ADD, with `-16` on naturals. -/
theorem subStoresTheDifferenceModulo65536 : Obligations.SubStoresTheDifferenceModulo65536 := by
  refine fun a b c lit s => ⟨decode_joinWord .., complete_haltsInvalidRegister, complete_haltsProtectedRegisterWrite,
    fun hsel hallowed => ?_⟩
  obtain ⟨t, ht, hdiff, hframe⟩ := complete_writeReg hsel hallowed (by simp) (s.readReg a - s.readReg b)
  exact ⟨t, ht, by rw [hdiff, toNat_sub_word], hframe⟩

/-- Settles O13: XOR with the word of ones is the complement, and the one selector is source and destination. -/
theorem notComplementsInPlace : Obligations.NotComplementsInPlace := by
  refine fun a f3 f4 lit s => ⟨decode_joinWord .., complete_haltsInvalidRegister, complete_haltsProtectedRegisterWrite,
    fun hsel hallowed => ?_⟩
  have hnot : s.readReg a ^^^ 0xFFFF#16 = ~~~ s.readReg a := BitVec.xor_allOnes
  rw [hnot]
  exact complete_writeReg hsel hallowed (List.mem_singleton_self a) _

/-- Settles O14: the closed form of the truth flag, and no destination register to protect. -/
theorem andSetsTheTruthFlag : Obligations.AndSetsTheTruthFlag := by
  refine fun a b f4 lit s => ⟨decode_joinWord .., complete_haltsInvalidRegister, fun hsel => ?_⟩
  rw [← truthFlags_eq]
  exact complete_setFlags hsel _

/-- Settles O15: as AND, with the result of the OR. -/
theorem orSetsTheTruthFlag : Obligations.OrSetsTheTruthFlag := by
  refine fun a b f4 lit s => ⟨decode_joinWord .., complete_haltsInvalidRegister, fun hsel => ?_⟩
  rw [← truthFlags_eq]
  exact complete_setFlags hsel _

/-- Settles O16: the closed form of the comparison, which keeps bits 15:3 and sets one of the others. -/
theorem cmpSetsExactlyOneFlag : Obligations.CmpSetsExactlyOneFlag := by
  refine fun a b f4 lit s => ⟨decode_joinWord .., complete_haltsInvalidRegister, fun hsel => ?_⟩
  rw [← compareFlags_eq_toNat]
  exact complete_setFlags hsel _

end Sys2Proof.Machine

/-! ## The data movement and output instructions (42_move_output.md) -/

namespace Sys2Proof.Machine

/-! ### The frames of a store and of an output (R29, R37) -/

section Frames

variable (s : State) (addr v : Word)

theorem writeData_onlyDataChanges : OnlyDataChanges addr s (s.writeData addr v) :=
  ⟨⟨rfl, fun _ => rfl, rfl, rfl, rfl, rfl⟩, fun _ _ => rfl, fun _ ha => State.readData_writeData_other v ha, rfl⟩

theorem emit_onlyOutputChanges : OnlyOutputChanges s (s.emit v) :=
  ⟨⟨rfl, fun _ => rfl, rfl, rfl, rfl, rfl⟩, fun _ _ => rfl, fun _ => rfl⟩

end Frames

/-! ### The instructions by their outcomes (R69, R70, R83) -/

section MoveOutcomes

variable {s : State} {used : List Sel} {a d : Sel}

/-- All outcomes of an instruction that writes the Word `v` to its destination `d`, one of its own selectors. -/
theorem complete_writeReg_outcomes (hd : d ∈ used) (v : Word) :
    (¬ SelectorsExist s used → HaltsWith .invalidRegister s (s.complete used (some d) (s.writeReg d v))) ∧
    (SelectorsExist s used → ¬ DestinationAllowed s d →
      HaltsWith .protectedRegisterWrite s (s.complete used (some d) (s.writeReg d v))) ∧
    (SelectorsExist s used → DestinationAllowed s d →
      ∃ t, s.complete used (some d) (s.writeReg d v) = .next t ∧ t.readReg d = v ∧ OnlyRegsChange [d] s t) :=
  ⟨complete_haltsInvalidRegister, complete_haltsProtectedRegisterWrite,
    fun hsel hallowed => complete_writeReg hsel hallowed hd v⟩

theorem exec_out (h : SelectorsExist s [a]) : exec (.out a) s = .next (s.emit (s.readReg a)) :=
  State.complete_done h rfl

end MoveOutcomes

/-! ### The obligations -/

/-- Settles O17: the destination is the second selector, and the Word written is the first's. -/
theorem cpyCopiesFirstToSecond : Obligations.CpyCopiesFirstToSecond := fun a b _ _ s =>
  have hb : b ∈ [a, b] := List.mem_cons_of_mem a (List.mem_singleton_self b)
  ⟨decode_joinWord .., complete_writeReg_outcomes hb (s.readReg a)⟩

/-- Settles O18: OUT has no destination register to protect, and `emit` appends one Word. -/
theorem outAppendsTheRegister : Obligations.OutAppendsTheRegister := fun a _ _ _ s =>
  ⟨decode_joinWord .., complete_haltsInvalidRegister,
    fun hsel => ⟨_, exec_out hsel, rfl, emit_onlyOutputChanges s (s.readReg a)⟩⟩

/-- Settles O19: MOV has no destination register to protect, and the store reads back at its own address alone. -/
theorem movStoresToTheDataStore : Obligations.MovStoresToTheDataStore := fun a _ _ lit s =>
  ⟨decode_joinWord .., complete_haltsInvalidRegister,
    fun hsel => ⟨_, exec_mov hsel lit, State.readData_writeData_same .., writeData_onlyDataChanges s lit (s.readReg a)⟩⟩

/-- Settles O20: the one selector is the destination, and the Word written is the one the Data Store holds. -/
theorem ldLoadsFromTheDataStore : Obligations.LdLoadsFromTheDataStore := fun a _ _ lit s =>
  ⟨decode_joinWord .., complete_writeReg_outcomes (List.mem_singleton_self a) (s.readData lit)⟩

/-- Settles O21: as LD, with the literal itself as the Word written. -/
theorem ldvLoadsTheLiteral : Obligations.LdvLoadsTheLiteral := fun a _ _ lit _ =>
  ⟨decode_joinWord .., complete_writeReg_outcomes (List.mem_singleton_self a) lit⟩

end Sys2Proof.Machine

/-! ## The control instructions (43_control.md) -/

namespace Sys2Proof.Machine

/-! ### What a J decides and what it keeps (R87) -/

section JumpEffect

variable {s t : State}

/-- A J's decision on the tested bit as R87 writes it, mode by mode. -/
theorem ite_jumpTaken_getBit (mode : Nibble) (f : Word) (p : Nat) (target next : Word) :
    (if jumpTaken mode (getBit f p) then target else next) =
      if mode.toNat = 0 then (if f.toNat / 2 ^ p % 2 = 0 then target else next)
      else if mode.toNat = 1 then (if f.toNat / 2 ^ p % 2 = 1 then target else next)
      else target := by
  rw [getBit_eq, jumpTaken]
  split
  next hmode => simp [hmode]
  next hmode => simp [hmode]
  next h0 h1 => rw [if_pos rfl, if_neg h0, if_neg h1]

/-- A state that changes nowhere stays within any list of slots. -/
theorem OnlyRegsChange.refl (written : List Sel) (s : State) : OnlyRegsChange written s s :=
  ⟨⟨rfl, fun _ => rfl, rfl, rfl, rfl, rfl⟩, fun _ _ => rfl, fun _ => rfl, rfl⟩

/-- A J changes no slot but the PC, taken or not. -/
theorem exec_j_onlyRegsChange {mode bit : Nibble} {target : Word} (h : exec (.j mode bit target) s = .next t) :
    OnlyRegsChange [0] s t := by
  cases h
  split
  · exact writeReg_onlyRegsChange s 0 target
  · exact .refl [0] s

end JumpEffect

/-! ### The obligations -/

/-- Settles O22: the PC that a J leaves, with its decision written out mode by mode. -/
theorem jumpReplacesThePcWhenTaken : Obligations.JumpReplacesThePcWhenTaken := by
  refine fun mode bit f4 lit s => ⟨decode_joinWord .., ?_⟩
  obtain ⟨t, ht, hpc⟩ := exec_j_pc mode bit lit s
  exact ⟨t, ht, exec_j_onlyRegsChange ht, hpc.trans (ite_jumpTaken_getBit ..)⟩

/-- Settles O23: HLT decodes by its opcode alone, and its effect is the halt operation. -/
theorem hltHaltsRequested : Obligations.HltHaltsRequested := fun _ _ _ _ s =>
  ⟨decode_joinWord .., halt_haltsWith s .requested⟩

/-- Settles O24: each reserved opcode decodes by itself, and its effect is the halt operation. -/
theorem reservedOpcodesHaltUndefined : Obligations.ReservedOpcodesHaltUndefined := fun _ _ _ _ s =>
  have hhalt : HaltsWith .undefinedOpcode s (.next (s.halt .undefinedOpcode)) := halt_haltsWith s .undefinedOpcode
  ⟨⟨decode_joinWord .., hhalt⟩, ⟨decode_joinWord .., hhalt⟩, ⟨decode_joinWord .., hhalt⟩⟩

end Sys2Proof.Machine

/-! ## The exceptions (60_exceptions.md) -/

namespace Sys2Proof.Machine

/-! ### A halt is the halt operation and nothing else (R93) -/

section PreciseHalts

variable {s t : State} {i : Instr}

/-- An instruction halts with no other effect, or leaves the halt flag as it was. -/
theorem exec_halts_or_keeps_halted (h : exec i s = .next t) :
    t.halted = s.halted ∨ ∃ c, c ≠ .none ∧ t = s.halt c :=
  exec_keeps (P := fun u => u.halted = s.halted ∨ ∃ c, c ≠ .none ∧ u = s.halt c) h (.inl rfl)
    (fun c hne => .inr ⟨c, hne, rfl⟩) (fun _ _ => .inl rfl) (fun _ _ => .inl rfl) (fun _ => .inl rfl)

end PreciseHalts

/-! ### The checks of every instruction are those of its tables (R69, R70, R95) -/

section OperandTables

variable {s : State} {i : Instr} {dest : Option Sel}

/-- The table of R69 says of an instruction what the selector check asks of it. -/
theorem wellFormed_iff_selectorsExist : i.wellFormed s.nreg = true ↔ SelectorsExist s i.selectors := by
  simp [Instr.wellFormed]

theorem protectedDest_eq_false_of_allowed (h : ∀ d, dest = some d → DestinationAllowed s d) :
    s.protectedDest dest = false := by
  cases dest with
  | none => rfl
  | some d => exact (protectedDest_eq_false_iff d).2 (h d rfl)

/-- Every instruction answers by the operand checks over its own tables, those without operands included, and of the effects
behind the checks only HLT's and the reserved opcodes' touch the halt state. -/
theorem exec_eq_complete (i : Instr) (s : State) :
    ∃ done, exec i s = s.complete i.selectors i.destination done ∧
      (i ≠ .reservedB → i ≠ .reservedC → i ≠ .reservedD → i ≠ .hlt →
        done.halted = s.halted ∧ done.haltCause = s.haltCause) := by
  cases i with
  | reservedB => exact ⟨_, rfl, fun hne => absurd rfl hne⟩
  | reservedC => exact ⟨_, rfl, fun _ hne => absurd rfl hne⟩
  | reservedD => exact ⟨_, rfl, fun _ _ hne => absurd rfl hne⟩
  | hlt => exact ⟨_, rfl, fun _ _ _ hne => absurd rfl hne⟩
  | j mode bit target =>
    have hkept := (exec_j_onlyRegsChange (s := s) (mode := mode) (bit := bit) (target := target) rfl).control
    exact ⟨_, rfl, fun _ _ _ _ => ⟨hkept.halted, hkept.haltCause⟩⟩
  | _ => exact ⟨_, rfl, fun _ _ _ _ => ⟨rfl, rfl⟩⟩

end OperandTables

/-! ### The obligations -/

/-- Settles O31: an instruction halts by the halt operation alone, and a halted core ignores the next step. -/
theorem haltsArePreciseAndAtomic : Obligations.HaltsArePreciseAndAtomic := by
  intro s t hready hstep hhalted
  rw [step_of_ready hready] at hstep
  obtain hsame | ⟨c, hne, rfl⟩ := exec_halts_or_keeps_halted hstep
  · have hrunning : t.halted = false := hsame.trans hready.1
    rw [hrunning] at hhalted
    cases hhalted
  · exact ⟨rfl, hne, step_of_halted rfl⟩

/-- Settles O32: the opcode class decides by itself, and every other cause is the operand checks' over the instruction's tables. -/
theorem haltCauseFollowsPriority : Obligations.HaltCauseFollowsPriority := by
  intro i s
  obtain ⟨done, hexec, hkept⟩ := exec_eq_complete i s
  refine ⟨?reserved, ?hlt, ?invalid, ?protectedWrite, ?completes⟩
  case reserved => rintro (rfl | rfl | rfl) <;> exact halt_haltsWith s .undefinedOpcode
  case hlt =>
    rintro rfl
    exact halt_haltsWith s .requested
  case invalid =>
    intro hwf
    rw [← Bool.not_eq_true, wellFormed_iff_selectorsExist] at hwf
    rw [hexec]
    exact complete_haltsInvalidRegister hwf
  case protectedWrite =>
    rintro hwf ⟨d, hd, hprotected⟩
    rw [hexec, hd]
    exact complete_haltsProtectedRegisterWrite (wellFormed_iff_selectorsExist.1 hwf) hprotected
  case completes =>
    intro hwf hallowed hB hC hD hhlt
    rw [hexec, State.complete_done (wellFormed_iff_selectorsExist.1 hwf) (protectedDest_eq_false_of_allowed hallowed)]
    exact ⟨done, rfl, hkept hB hC hD hhlt⟩

end Sys2Proof.Machine

/-! ## Reset, load and the host's requests (70_reset_and_hazards.md) -/

namespace Sys2Proof.Machine

/-! ### The Data Store after a reset (R106) -/

section ResetData

variable {s : State}

theorem hostReset_dataKept (hkeep : s.params.resetData = .keep) : DataKept s s.hostReset := fun _ => by
  simp [State.readData, State.hostReset, hkeep]

/-- Under `redraw` a reset unlists every cell, so that each reads as the next draw has it. -/
theorem hostReset_readData_redraw (hredraw : s.params.resetData = .redraw) (a : Word) :
    s.hostReset.readData a = Config.dataInit (s.dataDraw + 1) a := by
  simp [State.readData, State.hostReset, hredraw]

end ResetData

/-! ### Refused requests (R108, R111) -/

section Refusals

variable {s : State} {words : List Word}

theorem hostLoad_tooLong (hc : s.cycles = 0) (hw : Config.bankWords < words.length) :
    hostLoad words s = .refused .loadTooLong := by
  simp [hostLoad, hc, hw]

theorem hostLoad_duringRun (hc : s.cycles ≠ 0) : hostLoad words s = .refused .loadDuringRun := if_neg hc

theorem step_noProgramLoaded (hrunning : s.halted = false) (hl : s.loaded = false) :
    step s = .refused .noProgramLoaded := by
  simp [step, hrunning, hl]

theorem afterAction_of_refused {act : HostAction} {r : Refusal} (h : hostAct act s = .refused r) :
    afterAction act s = s := by
  simp [afterAction, h]

end Refusals

/-! ### The obligations -/

/-- Settles O37: the zeroed register file, the two cases of the Data Store, and fields that `State.hostReset` names. -/
theorem resetReinitialisesAllButTheProgram : Obligations.ResetReinitialisesAllButTheProgram := fun s =>
  ⟨s.hostReset, rfl, s.hostReset_readReg, rfl, rfl, rfl, hostReset_dataKept, hostReset_readData_redraw, fun _ => rfl, rfl, rfl,
    rfl⟩

/-- Settles O38: a load that is allowed changes the Program Store and `loaded` alone, and each other load has its refusal. -/
theorem loadFillsTheProgramStore : Obligations.LoadFillsTheProgramStore := by
  intro words s
  refine ⟨fun hc hw => ?loads, fun hc hw => ?tooLong, fun hc => ?duringRun⟩
  case loads =>
    exact ⟨s.withProgram words, hostLoad_of_fresh hc hw, withProgram_readProgram s words, rfl, fun _ _ => rfl, fun _ => rfl,
      rfl, rfl, rfl, rfl, rfl⟩
  case tooLong =>
    have hrefused := hostLoad_tooLong hc hw
    exact ⟨hrefused, afterAction_of_refused hrefused⟩
  case duringRun =>
    have hrefused := hostLoad_duringRun (words := words) hc
    exact ⟨hrefused, afterAction_of_refused hrefused⟩

/-- Settles O43: a completed action keeps the invariant, and after any other the host has the state it had. -/
theorem hostActionsKeepTheInvariant : Obligations.HostActionsKeepTheInvariant := by
  intro act s hinv
  obtain hnext | hsame := afterAction_cases act s
  · exact hostAct_machineInv hinv hnext
  · rwa [hsame]

/-- Settles O9: a core that is neither halted nor loaded takes the refusing branch of `step`. -/
theorem stepBeforeLoadIsRefused : Obligations.StepBeforeLoadIsRefused := fun _ => step_noProgramLoaded

end Sys2Proof.Machine
